-- ==== Sys2Proof/Word.lean ====
section
/-! DEFINITION. The two word types of the block: a 32-bit command word (spec 30_encoding.md R45) and a
binary32 value (spec 00_scope.md R5, R8).  A real-valued register is a bit pattern because the
rules fix its bits (rounding, signed zeros, subnormals, NaN patterns).  Notes, controller indices, counts and
positions are naturals, never bit vectors (R8: integer arithmetic is exact and never wraps). -/

namespace Sys2Proof

/-- A command word (R45); bit 0 is the least significant (R7). -/
abbrev Word := BitVec 32

/-- One byte of a transport that carries words as bytes (R34). -/
abbrev Byte := BitVec 8

/-- An `FP` value: an IEEE 754 binary32 bit pattern (R5, R8). -/
abbrev F32 := BitVec 32

end Sys2Proof
end

