-- ==== Sys2Proof/Config.lean ====
section
/-! DEFINITION. The implementation parameters of one block instance (spec 00_scope.md R5), which are not state, and
the free values: constants with no body, so that no proof can know what they are.  The spec's values of the
parameters are put together in Machine/Numerics.lean (`Config.params`). -/

namespace Sys2Proof

/-- The parameters a model takes, "fixed for the life of one block instance" (R5).  `FP` is not a
field: this model is the model of `FP` = binary32 and has no other format (assumption log 1). -/
structure Params where
  /-- `R`, the sample rate in Hz, a positive integer. -/
  sampleRate : Nat
  /-- `C`, the output channels per frame, a positive integer. -/
  channels : Nat
  /-- `N_DEF`, the frame count of the `render` pseudo-command without an operand. -/
  defaultFrames : Nat
  /-- `NYQUIST_CLAMP` (R83). -/
  nyquistClamp : Bool
  /-- `VOICE_CAPACITY` (R6): `none` is unbounded, `some n` is the bound `Vmax = n`. -/
  voiceCapacity : Option Nat
  /-- `SIN` (R12). -/
  sin : F32 → F32
  /-- `COS` (R12). -/
  cos : F32 → F32
  /-- `EXP` (R12). -/
  exp : F32 → F32
  /-- `POW2` (R12). -/
  pow2 : F32 → F32
  /-- `NAN_PAYLOAD` (R5, R103): the draw numbered `n`.  Only its sign bit and its low 23 bits are used. -/
  nanDraw : Nat → F32

/-- `R` and `C` are positive integers (R5), and a bound on the voice table is positive (R6). -/
abbrev Params.wellFormed (p : Params) : Prop :=
  0 < p.sampleRate ∧ 0 < p.channels ∧ p.voiceCapacity ≠ some 0

namespace Config

/-- FREE VALUE (D5, assumption log 3): the block's sine before properties P1 and P6 are imposed on it. -/
opaque rawSin : F32 → F32

/-- FREE VALUE (D5, assumption log 3): the block's cosine before property P6 is imposed on it. -/
opaque rawCos : F32 → F32

/-- FREE VALUE (D5, assumption log 3): the block's exponential before properties P5 and P6 are imposed on it. -/
opaque rawExp : F32 → F32

/-- FREE VALUE (D5, assumption log 3): the block's power of two before properties P2 and P3 are imposed on it. -/
opaque rawPow2 : F32 → F32

/-- FREE VALUE (R103, D1, assumption log 2): the bits drawn for the NaN results, numbered by State's `draws`. -/
opaque nanPayload : Nat → F32

/-- FREE VALUE (R39, D11, assumption log 6): whether the event agent's word goes first, at the choice numbered by
State's `turns`, when both agents have a word waiting. -/
opaque eventFirst : Nat → Bool

end Config

end Sys2Proof
end

