-- ==== Sys2Proof/Machine/Float.lean ====
section
/-! DEFINITION. IEEE 754 binary32 as the rules use it (spec 00_scope.md R8): `+ - * /` with round-to-nearest,
ties-to-even, each rounded on its own, subnormals kept, no flag recorded (60_exceptions.md R102), negation, and
`fp(n)`.

Every finite binary32 value is a whole number of units of 2^-149, the smallest subnormal.  An operation is
computed exactly in such units and then rounded once, by `roundMag`.  An operation whose result is a NaN gives the
NaN made of the draw it was handed (R103: "the bits of a NaN result are the draw").

The operations are marked irreducible so that a proof uses their lemmas (Laws/Fp.lean) and never unfolds them by
accident; the kernel evaluates them all the same.

The corners (infinities, invalid operations, the sign of a zero) are IEEE 754's, which R8 adopts (assumption
log 11). -/

namespace Sys2Proof.Fp

/-- The magnitude bits of a binary32 value: the exponent field and the fraction, without the sign bit. -/
def mag (a : F32) : Nat := a.toNat % 2 ^ 31

/-- The sign bit: true for a negative value and for −0. -/
def sign (a : F32) : Bool := decide (2 ^ 31 ≤ a.toNat)

/-- The magnitude bits of infinity; the greater ones are NaNs. -/
def infMag : Nat := 0x7F800000

/-- A NaN: an exponent field of ones with a fraction that is not zero. -/
def isNaN (a : F32) : Bool := decide (infMag < mag a)

/-- An infinity of either sign. -/
def isInf (a : F32) : Bool := decide (mag a = infMag)

/-- A finite value: zero, subnormal or normal. -/
def isFinite (a : F32) : Bool := decide (mag a < infMag)

/-- A zero of either sign. -/
def isZero (a : F32) : Bool := decide (mag a = 0)

/-- The value with the given sign and magnitude bits. -/
def ofMag (negative : Bool) (m : Nat) : F32 := BitVec.ofNat 32 (bif negative then 2 ^ 31 + m else m)

/-- The exact size, in units of 2^-149, of the value whose magnitude bits are `m`; for infinity, a number above
that of every finite value. -/
def units (m : Nat) : Nat :=
  let e := m / 2 ^ 23
  if e = 0 then m else (2 ^ 23 + m % 2 ^ 23) * 2 ^ (e - 1)

/-- The exact value in units of 2^-149, with its sign. -/
def value (a : F32) : Int := bif sign a then -(units (mag a) : Int) else (units (mag a) : Int)

/-- The magnitude bits of `n / d` units of 2^-149, rounded to nearest, ties to even (R8); infinity when the rounded
size is above every finite one.  `d` is not 0.

The quantum is `2^k` units, where `k` is what the size's leading bit asks for beyond 24 bits and 0 for a
subnormal.  A rounded significand `m` with quantum `2^k` has the magnitude bits `k * 2^23 + m`, also when rounding
carried `m` to `2^24`. -/
@[irreducible] def roundMag (n d : Nat) : Nat :=
  let k := Nat.log2 (n / d) - 23
  let quantum := d * 2 ^ k
  let m := n / quantum
  let rest := n % quantum
  let up := if quantum < 2 * rest ∨ (2 * rest = quantum ∧ m % 2 = 1) then 1 else 0
  min (k * 2 ^ 23 + m + up) infMag

/-- The NaN whose sign bit and fraction are the draw's (R103).  A draw with the fraction 0, which no NaN has, gives
the fraction 2^22. -/
def nanOf (draw : F32) : F32 :=
  let fraction := draw.toNat % 2 ^ 23
  ofMag (sign draw) (infMag + if fraction = 0 then 2 ^ 22 else fraction)

/-- `-a` "flips the sign bit" (R8). -/
def neg (a : F32) : F32 := ofMag (!sign a) (mag a)

/-- `fp(n)`: the value of the integer `n` (R8), exact below 2^24. -/
@[irreducible] def ofNat (n : Nat) : F32 := ofMag false (roundMag (n * 2 ^ 149) 1)

/-- `a + b` (R8). -/
@[irreducible] def add (draw a b : F32) : F32 :=
  if isNaN a || isNaN b then nanOf draw
  else if isInf a then
    if isInf b && sign a != sign b then nanOf draw else a
  else if isInf b then b
  else
    let z := value a + value b
    if z = 0 then ofMag (sign a && sign b) 0
    else ofMag (decide (z < 0)) (roundMag z.natAbs 1)

/-- `a - b` (R8): the sum of `a` and `-b`. -/
@[irreducible] def sub (draw a b : F32) : F32 := add draw a (neg b)

/-- `a * b` (R8). -/
@[irreducible] def mul (draw a b : F32) : F32 :=
  if isNaN a || isNaN b then nanOf draw
  else if (isInf a && isZero b) || (isZero a && isInf b) then nanOf draw
  else if isInf a || isInf b then ofMag (sign a != sign b) infMag
  else ofMag (sign a != sign b) (roundMag (units (mag a) * units (mag b)) (2 ^ 149))

/-- `a / b` (R8). -/
@[irreducible] def div (draw a b : F32) : F32 :=
  if isNaN a || isNaN b then nanOf draw
  else if (isInf a && isInf b) || (isZero a && isZero b) then nanOf draw
  else if isInf a || isZero b then ofMag (sign a != sign b) infMag
  else if isInf b then ofMag (sign a != sign b) 0
  else ofMag (sign a != sign b) (roundMag (units (mag a) * 2 ^ 149) (units (mag b)))

end Sys2Proof.Fp
end

