-- ==== Sys2Proof/Machine/Flags.lean ====
section
/-! DEFINITION. The block has no flag, condition code or status register (spec 10_state.md R29) and records no IEEE 754
exception flag (60_exceptions.md R102), so no command computes one.  The only conditions are the comparisons of
00_scope.md R8, read at once by the rule that makes them. -/

namespace Sys2Proof.Fp

/-- `a > b` (R8): false when either is a NaN; −0 and +0 are equal. -/
def gt (a b : F32) : Bool := !isNaN a && !isNaN b && decide (value b < value a)

/-- `a == b` (R8): false when either is a NaN; `+0 == -0`. -/
def eq (a b : F32) : Bool := !isNaN a && !isNaN b && decide (value a = value b)

end Sys2Proof.Fp
end

