-- ==== Sys2Proof/Machine/Constants.lean ====
section
/-! DEFINITION. The constants of the rules (spec 00_scope.md R10) and the constants derived from the sample rate
(R11). -/

namespace Sys2Proof

/-- `+0.0` and `0.0`. -/
def k0 : F32 := 0x00000000
/-- `1.0`, also `K_Q` (R10). -/
def k1 : F32 := 0x3F800000
/-- `-1.0`. -/
def kMinus1 : F32 := 0xBF800000
/-- `2.0`. -/
def k2 : F32 := 0x40000000
/-- `-2.0`. -/
def kMinus2 : F32 := 0xC0000000
/-- `10.0`. -/
def k10 : F32 := 0x41200000
/-- `12.0`. -/
def k12 : F32 := 0x41400000
/-- `50.0`. -/
def k50 : F32 := 0x42480000
/-- `69.0`. -/
def k69 : F32 := 0x428A0000
/-- `100.0`. -/
def k100 : F32 := 0x42C80000
/-- `127.0`. -/
def k127 : F32 := 0x42FE0000
/-- `440.0`. -/
def k440 : F32 := 0x43DC0000
/-- `K_TWO_PI` (R10). -/
def kTwoPi : F32 := 0x40C90FDB
/-- `K_LN2` (R10). -/
def kLn2 : F32 := 0x3F317218
/-- `K_MAXF`, 20000.0 (R10). -/
def kMaxF : F32 := 0x469C4000
/-- `K_ENV_DIV`, 64.0 (R10). -/
def kEnvDiv : F32 := 0x42800000
/-- `K_Q`, 1.0 (R10). -/
def kQ : F32 := 0x3F800000
/-- `K_CLAMP_FRAC`, 0.99 (R10). -/
def kClampFrac : F32 := 0x3F7D70A4

/-- `RF = fp(R)` (R11). -/
def Params.rf (p : Params) : F32 := Fp.ofNat p.sampleRate

/-- `DT = 1.0 / RF` (R11).  Its draw is never used: neither operand is a NaN and 1.0 is neither a zero nor an
infinity. -/
def Params.dt (p : Params) : F32 := Fp.div k0 k1 p.rf

/-- `CLAMP_LIMIT = (RF / 2.0) * K_CLAMP_FRAC` (R11).  Its draws are never used, as for `DT`. -/
def Params.clampLimit (p : Params) : F32 := Fp.mul k0 (Fp.div k0 p.rf k2) kClampFrac

end Sys2Proof
end

