-- ==== Sys2Proof/Machine/Numerics.lean ====
section
/-! DEFINITION. The transcendental configuration functions with the properties P1 to P6 that the spec assumes of them
(spec 00_scope.md R12), and the parameters at the values the spec takes (R5).

Each function is an unknown one (Config.lean) with its value replaced wherever that value would break a property.
A function that has the properties is left as it is, so the functions below are exactly those with the properties
(assumption log 3). -/

namespace Sys2Proof

/-- `|y| <= 1.0`, in magnitude bits. -/
def withinOne (y : F32) : Bool := decide (Fp.mag y ≤ 0x3F800000)

/-- `y > 0.0`: a positive value, infinity included, that is no NaN. -/
def isPositive (y : F32) : Bool := !Fp.sign y && decide (0 < Fp.mag y) && !Fp.isNaN y

/-- Within 1 unit in the last place (2^-22) of 2.0: the four values from 2 − 2^-22 to 2 + 2^-22 (P3,
assumption log 4). -/
def nearTwo (y : F32) : Bool := decide (0x3FFFFFFE ≤ y.toNat) && decide (y.toNat ≤ 0x40000001)

/-- A finite `x >= -87.0`, in the argument range of property P6 of `EXP`. -/
def expArgInRange (x : F32) : Bool :=
  Fp.isFinite x && (!Fp.sign x || decide (Fp.mag x ≤ 0x42AE0000))

/-- The properties P1 to P3, P5 and P6 of R12.  P4, "each depends on its argument alone", is what the type of a
function says. -/
structure Params.Properties (p : Params) : Prop where
  /-- P1: `SIN(+0.0) == +0.0` exactly. -/
  p1 : p.sin k0 = k0
  /-- P2: `POW2(+0.0) == 1.0` exactly. -/
  p2 : p.pow2 k0 = k1
  /-- P3: `POW2(1.0)` within 1 unit in the last place of 2.0. -/
  p3 : nearTwo (p.pow2 k1) = true
  /-- P5: `EXP(+0.0) == 1.0` exactly. -/
  p5 : p.exp k0 = k1
  /-- P6: `|SIN(x)| <= 1.0` for every finite `x`. -/
  p6sin : ∀ x, Fp.isFinite x = true → withinOne (p.sin x) = true
  /-- P6: `|COS(x)| <= 1.0` for every finite `x`. -/
  p6cos : ∀ x, Fp.isFinite x = true → withinOne (p.cos x) = true
  /-- P6: `EXP(x) > 0.0` for every finite `x >= -87.0`. -/
  p6exp : ∀ x, expArgInRange x = true → isPositive (p.exp x) = true

namespace Config

/-- `SIN`, with P1 and P6. -/
def sin (x : F32) : F32 :=
  if x = k0 then k0
  else if Fp.isFinite x && !withinOne (rawSin x) then k1 else rawSin x

/-- `COS`, with P6. -/
def cos (x : F32) : F32 :=
  if Fp.isFinite x && !withinOne (rawCos x) then k1 else rawCos x

/-- `EXP`, with P5 and P6. -/
def exp (x : F32) : F32 :=
  if x = k0 then k1
  else if expArgInRange x && !isPositive (rawExp x) then k1 else rawExp x

/-- `POW2`, with P2 and P3. -/
def pow2 (x : F32) : F32 :=
  if x = k0 then k1
  else if x = k1 then (if nearTwo (rawPow2 x) then rawPow2 x else k2)
  else rawPow2 x

/-- The parameters at the values the spec takes (R5): `R` = 44100, `C` = 2, `N_DEF` = 64, the Nyquist clamp on, the
voice table unbounded; the transcendental functions and the NaN draws stay free. -/
def params : Params where
  sampleRate := 44100
  channels := 2
  defaultFrames := 64
  nyquistClamp := true
  voiceCapacity := none
  sin := sin
  cos := cos
  exp := exp
  pow2 := pow2
  nanDraw := nanPayload

end Config

end Sys2Proof
end

