-- ==== Sys2Proof/Syntax.lean ====
section
/-! DEFINITION. The command set svnth-cmd32 (spec 30_encoding.md R46, R47): one constructor per row of
spec/opcode_table.json.  `IGNORED` "is not an instruction" (R48): it is the decoder's verdict, in Decode.lean. -/

namespace Sys2Proof

/-- A command.  Its operands are the unsigned integers of R49 to R51; their ranges are checked in
WellFormed.lean. -/
inductive Instr where
  /-- `NOP` (R60). -/
  | nop
  /-- `NOTE_ON note` (R57). -/
  | noteOn (note : Nat)
  /-- `NOTE_OFF note` (R59). -/
  | noteOff (note : Nat)
  /-- `SET_CTRL index, value` (R61). -/
  | setCtrl (index value : Nat)
  /-- `RENDER n` (R87). -/
  | render (nframes : Nat)
  deriving DecidableEq, Repr

end Sys2Proof
end

