-- ==== Sys2Proof/WellFormed.lean ====
section
/-! DEFINITION. The operand ranges of the commands (spec 30_encoding.md R49 to R51): exactly the operands that the
encoding can hold. -/

namespace Sys2Proof

/-- Every operand is in the range its field holds: a note and a value in 0..127 (R49, R50), an index in
0..255 (R50), a frame count in 0..65535 (R51). -/
abbrev Instr.WellFormed : Instr → Bool
  | .nop => true
  | .noteOn note => decide (note < 128)
  | .noteOff note => decide (note < 128)
  | .setCtrl index value => decide (index < 256) && decide (value < 128)
  | .render nframes => decide (nframes < 65536)

end Sys2Proof
end

