-- ==== Sys2Proof/Decode.lean ====
section
/-! DEFINITION. The decoder (spec 30_encoding.md R45 to R55), the opcode map as rows of match and mask (R47), and the
encoder written from the same tables (R46, R56). -/

namespace Sys2Proof

/-- `w[hi:lo]`: the unsigned integer held in bits `hi` down to `lo` inclusive of `w` (R7). -/
def field (w : Word) (hi lo : Nat) : Nat :=
  w.toNat / 2 ^ lo % 2 ^ (hi + 1 - lo)

/-- `OP = w[31:24]` (R45). -/
def opField (w : Word) : Nat := field w 31 24

/-- `A = w[23:16]` (R45). -/
def aField (w : Word) : Nat := field w 23 16

/-- `B = w[15:0]` (R45). -/
def bField (w : Word) : Nat := field w 15 0

/-- Why the decoder's verdict on a word is `IGNORED` (R52, R53).  No reason is a fault (R101). -/
inductive Ignored where
  /-- Opcode 0x00 with a nonzero bit elsewhere: not `NOP` (R52, R60). -/
  | malformedNop
  /-- Opcode 0x01 with a reserved bit set: bit 23 (a note above 127) or a bit of 15..0 (R49, R52). -/
  | malformedNoteOn
  /-- Opcode 0x02 with a reserved bit set: bit 23 (a note above 127) or a bit of 15..0 (R49, R52). -/
  | malformedNoteOff
  /-- Opcode 0x03 with a reserved bit of 15..7 set (R52). -/
  | malformedSetCtrl
  /-- Opcode 0x04 with a reserved bit of 23..16 set: no output block (R52, R62, R126). -/
  | malformedRender
  /-- An opcode in 0x05..0xFF (R53). -/
  | unassignedOpcode (op : Nat)
  deriving DecidableEq, Repr

/-- The decoder, a total function of the word alone (R48, R55): a command, or the verdict `IGNORED` with its
reason. -/
def decode (w : Word) : Except Ignored Instr :=
  match opField w with
  | 0 => if w = 0 then .ok .nop else .error .malformedNop
  | 1 =>
    if field w 23 23 = 0 ∧ bField w = 0 then .ok (.noteOn (field w 22 16))
    else .error .malformedNoteOn
  | 2 =>
    if field w 23 23 = 0 ∧ bField w = 0 then .ok (.noteOff (field w 22 16))
    else .error .malformedNoteOff
  | 3 =>
    if field w 15 7 = 0 then .ok (.setCtrl (field w 23 16) (field w 6 0))
    else .error .malformedSetCtrl
  | 4 =>
    if field w 23 16 = 0 then .ok (.render (field w 15 0))
    else .error .malformedRender
  | op => .error (.unassignedOpcode op)

/-- One row of the opcode map (R47). -/
structure OpcodeRow where
  mnemonic : String
  pattern : Word
  mask : Word
  deriving DecidableEq, Repr

/-- The opcode map's five rows (R47). -/
def opcodeTable : List OpcodeRow :=
  [ ⟨"NOP", 0x00000000, 0xFFFFFFFF⟩,
    ⟨"NOTE_ON", 0x01000000, 0xFF80FFFF⟩,
    ⟨"NOTE_OFF", 0x02000000, 0xFF80FFFF⟩,
    ⟨"SET_CTRL", 0x03000000, 0xFF00FF80⟩,
    ⟨"RENDER", 0x04000000, 0xFFFF0000⟩ ]

/-- "A word matches a row when `(w & mask) == match`" (R47). -/
def OpcodeRow.matchesWord (r : OpcodeRow) (w : Word) : Bool := (w &&& r.mask) == r.pattern

/-- The row of the opcode map a command belongs to. -/
def Instr.mnemonic : Instr → String
  | .nop => "NOP"
  | .noteOn _ => "NOTE_ON"
  | .noteOff _ => "NOTE_OFF"
  | .setCtrl _ _ => "SET_CTRL"
  | .render _ => "RENDER"

/-- The opcode byte of a command (R47). -/
def Instr.opcode : Instr → Nat
  | .nop => 0x00
  | .noteOn _ => 0x01
  | .noteOff _ => 0x02
  | .setCtrl _ _ => 0x03
  | .render _ => 0x04

/-- The word `{OP, A, B}` of the three fields of R45. -/
def wordOfFields (op a b : Nat) : Word := BitVec.ofNat 32 (op * 2 ^ 24 + a * 2 ^ 16 + b)

/-- The word of a command (the column "encodes to" of R56, the formats of R46).  It stands for the command
only when the operands are in range (`Instr.WellFormed`); the assembler refuses the others. -/
def encode : Instr → Word
  | .nop => wordOfFields 0x00 0 0
  | .noteOn note => wordOfFields 0x01 note 0
  | .noteOff note => wordOfFields 0x02 note 0
  | .setCtrl index value => wordOfFields 0x03 index value
  | .render nframes => wordOfFields 0x04 0 nframes

/-- The word that an opcode-table row of `nbits` bits stands for when its bits are `w`: bit 0 of the table is
bit 0 of the word (R7), and every bit above the `nbits` given is 0. -/
def tableWord (nbits w : Nat) : Word := BitVec.ofNat 32 (w % 2 ^ nbits)

/-- The command this decoder reads from a table row's bits, `none` where its verdict is `IGNORED`.  Every
command is one 32-bit word (R36, R45), so a row of more bits has none. -/
def decodeTableWord (nbits w : Nat) : Option Instr :=
  if nbits ≤ 32 then (decode (tableWord nbits w)).toOption else none

end Sys2Proof
end

