-- ==== Sys2Proof/Machine/State.lean ====
section
/-! DEFINITION. The state of the block (spec 10_state.md section 1), its value after power-on reset
(70_reset_and_hazards.md R114), and the reasons a step can stop. -/

namespace Sys2Proof.Machine

/-- One entry `(note, freq)` of the voice table (R19). -/
structure Voice where
  /-- The note number, 0..127. -/
  note : Nat
  /-- Its frequency in Hz, computed once when the entry was made (R20). -/
  freq : F32
  deriving DecidableEq, Repr

/-- The document's FilterState record: thirteen FP registers (R24). -/
structure FilterState where
  /-- `CUTOFF_PCT`. -/
  cutoffPct : F32
  /-- `RES_PCT`, written by nothing and read by nothing (R27). -/
  resPct : F32
  /-- `Q`. -/
  q : F32
  /-- `A0`. -/
  a0 : F32
  /-- `A1`. -/
  a1 : F32
  /-- `A2`. -/
  a2 : F32
  /-- `B0B2`. -/
  b0b2 : F32
  /-- `B1`. -/
  b1 : F32
  /-- `X1`, the input one sample back (R25). -/
  x1 : F32
  /-- `X2`, the input two samples back (R25). -/
  x2 : F32
  /-- `Y0`, the last output (R24). -/
  y0 : F32
  /-- `Y1`, the output one sample back (R25). -/
  y1 : F32
  /-- `Y2`, the output two samples back (R25). -/
  y2 : F32
  deriving DecidableEq, Repr

/-- Everything the spec gives the block (R14), its two data streams (R31), and two counters of the model's own
that number the free values. -/
structure State where
  /-- `AMP` (R15). -/
  amp : F32
  /-- `GATE` (R16). -/
  gate : F32
  /-- `CTRL1`, the cutoff depth (R17, R18). -/
  ctrl1 : F32
  /-- `CTRL2`, the LFO rate (R17, R18). -/
  ctrl2 : F32
  /-- `CTRL3`, written by SET_CTRL and read by no rule (R18). -/
  ctrl3 : F32
  /-- `CTRL4`, written by SET_CTRL and read by no rule (R18). -/
  ctrl4 : F32
  /-- `V`, the voice table in insertion order (R19). -/
  voices : List Voice
  /-- `LFS`, the last filtered sample (R21). -/
  lfs : F32
  /-- `T`, the elapsed time in seconds (R22). -/
  t : F32
  /-- The FilterState record (R24). -/
  filter : FilterState
  /-- The words the event agent has issued and the block has not executed, oldest first (R31, R38, R108). -/
  eventQueue : List Word
  /-- The words the render agent has issued and the block has not executed, oldest first (R31, R38, R108). -/
  renderQueue : List Word
  /-- The output stream: the output blocks handed to the host since reset, oldest first (R31, R33). -/
  output : List (List F32)
  /-- MODEL'S OWN: the number of the next NaN draw (assumption log 2). -/
  draws : Nat
  /-- MODEL'S OWN: the number of the next free choice between the two agents (assumption log 6). -/
  turns : Nat
  deriving DecidableEq, Repr

/-- The reasons a step can stop with a fault: none.  "A model of this block has no fault outcome for any command
word" (R101), so this type has no constructor and no meaning can raise one. -/
inductive Fault where
  deriving DecidableEq, Repr

/-- The reasons a step can be refused. -/
inductive Refusal where
  /-- Raised by `exec` alone, for a command that has no meaning yet; safe.  No command is left without one, so
  nothing raises it. -/
  | notModelled (mnemonic : String)
  deriving DecidableEq, Repr

/-- The filter registers after power-on reset: the seed 1.0 in each (R25, R26, R114). -/
def FilterState.reset : FilterState where
  cutoffPct := 0x3F800000
  resPct := 0x3F800000
  q := 0x3F800000
  a0 := 0x3F800000
  a1 := 0x3F800000
  a2 := 0x3F800000
  b0b2 := 0x3F800000
  b1 := 0x3F800000
  x1 := 0x3F800000
  x2 := 0x3F800000
  y0 := 0x3F800000
  y1 := 0x3F800000
  y2 := 0x3F800000

/-- The block after power-on reset (R114): +0.0 in `AMP`, `GATE`, `CTRL1`..`CTRL4`, `LFS` and `T`, an empty voice
table, 1.0 in the filter registers, no word issued yet and "no output block is pending".  The two counters start
at 0 (DESIGN CHOICE, assumption log 9). -/
def State.reset : State where
  amp := 0x00000000
  gate := 0x00000000
  ctrl1 := 0x00000000
  ctrl2 := 0x00000000
  ctrl3 := 0x00000000
  ctrl4 := 0x00000000
  voices := []
  lfs := 0x00000000
  t := 0x00000000
  filter := FilterState.reset
  eventQueue := []
  renderQueue := []
  output := []
  draws := 0
  turns := 0

end Sys2Proof.Machine
end

