-- ==== Sys2Proof/Machine/Operands.lean ====
section
/-! DEFINITION. What a command's operands become: the value a controller is set to and the register its index selects
(spec 40_commands.md R61, 20_memory.md R37), and the frequency of a note (R58). -/

namespace Sys2Proof.Machine

/-- The draws an operation sequence may take its NaN results from, numbered from 0. -/
abbrev Draws := Nat → F32

/-- The draws from number `k` on. -/
def Draws.from (nan : Draws) (k : Nat) : Draws := fun j => nan (k + j)

/-- The draws that come next in a state (R103). -/
def State.nan (p : Params) (s : State) : Draws := Draws.from p.nanDraw s.draws

/-- The value `fp(VALUE) / 127.0` a controller is set to (R50, R61).  Its draw is never used: `fp` of an integer is
no NaN and 127.0 is neither a zero nor an infinity. -/
def controllerValue (value : Nat) : F32 := Fp.div k0 (Fp.ofNat value) k127

/-- `CTRL[index]` as a value, for an index that selects a register (R17, R37). -/
def State.ctrl (s : State) : Nat → Option F32
  | 1 => some s.ctrl1
  | 2 => some s.ctrl2
  | 3 => some s.ctrl3
  | 4 => some s.ctrl4
  | _ => none

/-- `CTRL[index] <- v`; an index outside 1..4 selects nothing (R37, R61). -/
def State.setCtrl (s : State) (index : Nat) (v : F32) : State :=
  match index with
  | 1 => { s with ctrl1 := v }
  | 2 => { s with ctrl2 := v }
  | 3 => { s with ctrl3 := v }
  | 4 => { s with ctrl4 := v }
  | _ => s

/-- `FREQ(note) = 440.0 * POW2((fp(note) - 69.0) / 12.0)` (R58): three operations. -/
def freq (p : Params) (nan : Draws) (note : Nat) : F32 :=
  Fp.mul (nan 2) k440 (p.pow2 (Fp.div (nan 1) (Fp.sub (nan 0) (Fp.ofNat note) k69) k12))

end Sys2Proof.Machine
end

