-- ==== Sys2Proof/Machine/Ops.lean ====
section
/-! DEFINITION. The named writes of the block's registers (spec 00_scope.md R13: `REG <- v`), and the operations on the
voice table and the output stream that the commands share.

The block has no data memory and no address (20_memory.md R31, R37), so there is no memory operation.  It has no
trap: "no state is saved, no handler runs, no vector or base register exists, no return command exists and
nothing nests" (60_exceptions.md R100), so there is no operation that takes an exception and none that returns
from one. -/

namespace Sys2Proof.Machine

/-- `AMP <- v` (R66). -/
def State.setAmp (s : State) (v : F32) : State := { s with amp := v }

/-- `GATE <- v` (R57, R59). -/
def State.setGate (s : State) (v : F32) : State := { s with gate := v }

/-- `V <- vs` (R57, R59). -/
def State.setVoices (s : State) (vs : List Voice) : State := { s with voices := vs }

/-- `LFS <- v` (R92). -/
def State.setLfs (s : State) (v : F32) : State := { s with lfs := v }

/-- `T <- v` (R92). -/
def State.setT (s : State) (v : F32) : State := { s with t := v }

/-- The filter registers as a unit's rule left them (R82, R85). -/
def State.setFilter (s : State) (f : FilterState) : State := { s with filter := f }

/-- An output block is handed to the host (R33, R87). -/
def State.handOver (s : State) (block : List F32) : State := { s with output := s.output ++ [block] }

/-- `n` operations were done, each of which may have taken its draw (R103). -/
def State.useDraws (s : State) (n : Nat) : State := { s with draws := s.draws + n }

/-- The two agents' words still to be executed, and the number of the next free choice between them (R39). -/
def State.setQueues (s : State) (events renders : List Word) (turns : Nat) : State :=
  { s with eventQueue := events, renderQueue := renders, turns := turns }

/-- There is room for another voice: `VOICE_CAPACITY == unbounded or len(V) < Vmax` (R6, R57). -/
def hasRoom (p : Params) (vs : List Voice) : Bool :=
  match p.voiceCapacity with
  | none => true
  | some vmax => decide (vs.length < vmax)

/-- `[ e for e in V if e.note != note ]`, in the order they stood (R59). -/
def withoutNote (note : Nat) (vs : List Voice) : List Voice := vs.filter (fun e => e.note != note)

/-- One frame of an output block: the value on every channel (R32, R92). -/
def frame (p : Params) (y : F32) : List F32 := List.replicate p.channels y

end Sys2Proof.Machine
end

