-- ==== Sys2Proof/Machine/Agents.lean ====
section
/-! DEFINITION. The two host agents and the order in which the block takes their words (spec 60_exceptions.md R108,
20_memory.md R35, R38, R39).  A word runs the same whichever agent issued it (60_exceptions.md R105). -/

namespace Sys2Proof.Machine

/-- The host's agents (R108). -/
inductive Agent where
  /-- The event agent. -/
  | event
  /-- The render agent. -/
  | render
  deriving DecidableEq, Repr

/-- An agent issues a word: it waits behind that agent's earlier words (R38, R110, R118).  This is the host's act,
not a step of the block. -/
def State.issue (s : State) (agent : Agent) (w : Word) : State :=
  match agent with
  | .event => s.setQueues (s.eventQueue ++ [w]) s.renderQueue s.turns
  | .render => s.setQueues s.eventQueue (s.renderQueue ++ [w]) s.turns

/-- The word the block executes next and the state with that word taken: the oldest word of one agent (R38).  When
both agents have a word waiting the order is free (R39, R99) and `eventFirst` chooses, by the number of the
choice; a word is never merged or dropped. -/
def takeWord (eventFirst : Nat → Bool) (s : State) : Option (Word × State) :=
  match s.eventQueue, s.renderQueue with
  | [], [] => none
  | e :: es, [] => some (e, s.setQueues es [] s.turns)
  | [], r :: rs => some (r, s.setQueues [] rs s.turns)
  | e :: es, r :: rs =>
    if eventFirst s.turns then some (e, s.setQueues es (r :: rs) (s.turns + 1))
    else some (r, s.setQueues (e :: es) rs (s.turns + 1))

/-- `w` waits as the event agent's oldest word and no word of the render agent competes with it, so that `takeWord`
takes `w`. -/
def State.withNextWord (s : State) (w : Word) : State := s.setQueues (w :: s.eventQueue) [] s.turns

end Sys2Proof.Machine
end

