-- ==== Sys2Proof/Machine/Events.lean ====
section
/-! DEFINITION. The event commands (spec 40_commands.md): NOP, NOTE_ON, NOTE_OFF, SET_CTRL, and what the block does with
a word whose verdict is IGNORED. -/

namespace Sys2Proof.Machine

/-- NOTE_ON under the parameters `p` (R57): the voice is appended if there is room, and `GATE` is set to 1.0 even if
there is none.  A voice dropped for want of room computes no frequency. -/
def noteOn (p : Params) (note : Nat) (s : State) : State :=
  if hasRoom p s.voices then
    ((s.setVoices (s.voices ++ [⟨note, freq p (s.nan p) note⟩])).setGate k1).useDraws 3
  else s.setGate k1

/-- NOTE_OFF (R59): every entry of the note goes, and `GATE` is set to 1.0, not 0.0. -/
def noteOff (note : Nat) (s : State) : State :=
  (s.setVoices (withoutNote note s.voices)).setGate k1

/-- SET_CTRL (R61): an index outside 1..4 is ignored, as `State.setCtrl` says. -/
def setController (index value : Nat) (s : State) : State :=
  s.setCtrl index (controllerValue value)

/-- `NOP` (R60): `ignore`. -/
def execNop (s : State) : Host.Outcome State Fault Refusal := .next s

/-- `NOTE_ON note` (R57). -/
def execNoteOn (note : Nat) (s : State) : Host.Outcome State Fault Refusal :=
  .next (noteOn Config.params note s)

/-- `NOTE_OFF note` (R59). -/
def execNoteOff (note : Nat) (s : State) : Host.Outcome State Fault Refusal :=
  .next (noteOff note s)

/-- `SET_CTRL index, value` (R61). -/
def execSetCtrl (index value : Nat) (s : State) : Host.Outcome State Fault Refusal :=
  .next (setController index value s)

/-- A word whose verdict is `IGNORED` (R62): no register changes and no output is produced. -/
def execIgnored (s : State) : Host.Outcome State Fault Refusal := .next s

end Sys2Proof.Machine
end

