-- ==== Sys2Proof/Machine/Envelope.lean ====
section
/-! DEFINITION. The envelope smoother (spec 41_envelope.md R65, R66). -/

namespace Sys2Proof.Machine

/-- `ENV_STEP` (R66): `AMP + ((GATE - AMP) / K_ENV_DIV)`; three operations. -/
def envStep (nan : Draws) (amp gate : F32) : F32 :=
  Fp.add (nan 2) amp (Fp.div (nan 1) (Fp.sub (nan 0) gate amp) kEnvDiv)

end Sys2Proof.Machine
end

