-- ==== Sys2Proof/Machine/Filter.lean ====
section
/-! DEFINITION. The LFO-to-cutoff mapper, the coefficient computer with its Nyquist clamp, and the biquad filter
(spec 43_filter.md R80 to R85). -/

namespace Sys2Proof.Machine

/-- `cutoff_value = 100.0 * CTRL1` (R81); one operation. -/
def cutoffValue (nan : Draws) (ctrl1 : F32) : F32 := Fp.mul (nan 0) k100 ctrl1

/-- `s = SIN((K_TWO_PI * lfo_hz) * T)` with `lfo_hz = 50.0 * CTRL2` (R81); three operations, numbered from 1. -/
def lfoSine (p : Params) (nan : Draws) (ctrl2 t : F32) : F32 :=
  p.sin (Fp.mul (nan 3) (Fp.mul (nan 2) kTwoPi (Fp.mul (nan 1) k50 ctrl2)) t)

/-- The operations of `LFO_MAP`. -/
def lfoOps : Nat := 8

/-- `LFO_MAP` (R81): `((s * cutoff_value) / 2.0) + (cutoff_value / 2.0)`. -/
def lfoMap (p : Params) (nan : Draws) (ctrl1 ctrl2 t : F32) : F32 :=
  let cv := cutoffValue nan ctrl1
  let s := lfoSine p nan ctrl2 t
  Fp.add (nan 7) (Fp.div (nan 5) (Fp.mul (nan 4) s cv) k2) (Fp.div (nan 6) cv k2)

/-- `f0` before the clamp: `EXP((K_LN2 * (CUTOFF_PCT - 100.0)) / 10.0) * K_MAXF` (R82); four operations. -/
def cornerFrequency (p : Params) (nan : Draws) (cutoff : F32) : F32 :=
  Fp.mul (nan 3)
    (p.exp (Fp.div (nan 2) (Fp.mul (nan 1) kLn2 (Fp.sub (nan 0) cutoff k100)) k10)) kMaxF

/-- The Nyquist clamp: `if NYQUIST_CLAMP and f0 > CLAMP_LIMIT: f0 <- CLAMP_LIMIT` (R83). -/
def clampFrequency (p : Params) (f0 : F32) : F32 :=
  if p.nyquistClamp && Fp.gt f0 p.clampLimit then p.clampLimit else f0

/-- `w0 = (K_TWO_PI * f0) / RF` of the clamped `f0` (R82); six operations with those of `f0`. -/
def angularFrequency (p : Params) (nan : Draws) (cutoff : F32) : F32 :=
  Fp.div (nan 5) (Fp.mul (nan 4) kTwoPi (clampFrequency p (cornerFrequency p nan cutoff))) p.rf

/-- The operations of `COEF`. -/
def coefOps : Nat := 13

/-- `COEF` (R82): writes `CUTOFF_PCT`, `Q` and the five coefficients; `RES_PCT` is not read. -/
def coef (p : Params) (nan : Draws) (cutoff : F32) (f : FilterState) : FilterState :=
  let f := { f with cutoffPct := cutoff, q := kQ }
  let w0 := angularFrequency p nan f.cutoffPct
  let alpha := Fp.div (nan 7) (p.sin w0) (Fp.mul (nan 6) k2 f.q)
  let cosW0 := p.cos w0
  let b1 := Fp.sub (nan 11) k1 cosW0
  { f with
    a0 := Fp.add (nan 8) k1 alpha
    a1 := Fp.mul (nan 9) kMinus2 cosW0
    a2 := Fp.sub (nan 10) k1 alpha
    b1 := b1
    b0b2 := Fp.div (nan 12) b1 k2 }

/-- `acc` of the filter update: `B0B2*x0 + B1*X1 + B0B2*X2 - A1*Y1 - A2*Y2`, left to right (R85); nine
operations. -/
def biquadSum (nan : Draws) (x0 : F32) (f : FilterState) : F32 :=
  let acc := Fp.mul (nan 0) f.b0b2 x0
  let acc := Fp.add (nan 2) acc (Fp.mul (nan 1) f.b1 f.x1)
  let acc := Fp.add (nan 4) acc (Fp.mul (nan 3) f.b0b2 f.x2)
  let acc := Fp.sub (nan 6) acc (Fp.mul (nan 5) f.a1 f.y1)
  Fp.sub (nan 8) acc (Fp.mul (nan 7) f.a2 f.y2)

/-- The operations of `BIQUAD`. -/
def biquadOps : Nat := 10

/-- `BIQUAD x0` (R85): `Y0 <- acc / A0`, then the four moves in their order; the result is the new `Y0`. -/
def biquad (nan : Draws) (x0 : F32) (f : FilterState) : FilterState :=
  let f := { f with y0 := Fp.div (nan 9) (biquadSum nan x0 f) f.a0 }
  let f := { f with x2 := f.x1 }
  let f := { f with y2 := f.y1 }
  let f := { f with x1 := x0 }
  { f with y1 := f.y0 }

end Sys2Proof.Machine
end

