-- ==== Sys2Proof/Machine/Oscillator.lean ====
section
/-! DEFINITION. The oscillator summer (spec 42_oscillator.md R68, R69). -/

namespace Sys2Proof.Machine

/-- `raw`, the sine of one voice at time `t`: `SIN((K_TWO_PI * freq) * T)` (R69); two operations. -/
def voiceRaw (p : Params) (nan : Draws) (t : F32) (v : Voice) : F32 :=
  p.sin (Fp.mul (nan 1) (Fp.mul (nan 0) kTwoPi v.freq) t)

/-- What one voice adds to the sum: `1.0` if `(raw * amp_r) > 0.0`, else `-1.0` (R69); three operations. -/
def voiceSign (p : Params) (nan : Draws) (amp t : F32) (v : Voice) : F32 :=
  if Fp.gt (Fp.mul (nan 2) (voiceRaw p nan t v) amp) k0 then k1 else kMinus1

/-- The operations `OSC_SUM` does for one voice. -/
def oscOps : Nat := 4

/-- The loop of `OSC_SUM` from entry `i` on, `signal` being the sum so far (R69). -/
def oscSumFrom (p : Params) (nan : Draws) (amp t : F32) : Nat → F32 → List Voice → F32
  | _, signal, [] => signal
  | i, signal, v :: vs =>
    oscSumFrom p nan amp t (i + 1)
      (Fp.add (nan (oscOps * i + 3)) signal (voiceSign p (nan.from (oscOps * i)) amp t v)) vs

/-- `OSC_SUM` (R69): the signed unit contributions of the voices, summed in insertion order from +0.0. -/
def oscSum (p : Params) (nan : Draws) (voices : List Voice) (amp t : F32) : F32 :=
  oscSumFrom p nan amp t 0 k0 voices

end Sys2Proof.Machine
end

