-- ==== Sys2Proof/Machine/Render.lean ====
section
/-! DEFINITION. The sample step and the RENDER command (spec 44_render.md R87 to R92). -/

namespace Sys2Proof.Machine

/-- The operations of one sample step with `n` voices: those of the units, three of `ENV_STEP` and one of `T`. -/
def sampleOps (n : Nat) : Nat := oscOps * n + lfoOps + coefOps + biquadOps + 4

/-- The signal of a sample step, steps 1 and 2 of R91. -/
def sampleSignal (p : Params) (s : State) : F32 := oscSum p (s.nan p) s.voices s.amp s.t

/-- The cutoff of a sample step, step 3 of R91. -/
def sampleCutoff (p : Params) (s : State) : F32 :=
  lfoMap p ((s.nan p).from (oscOps * s.voices.length)) s.ctrl1 s.ctrl2 s.t

/-- The filter registers after steps 4 and 5 of R91. -/
def sampleFilter (p : Params) (s : State) : FilterState :=
  let base := oscOps * s.voices.length + lfoOps
  let f := coef p ((s.nan p).from base) (sampleCutoff p s) s.filter
  biquad ((s.nan p).from (base + coefOps)) (sampleSignal p s) f

/-- `SAMPLE_STEP` (R91), less step 6, which places the value `Y0` it leaves in the output block: steps 2 and 3 read
`T` and `AMP` before steps 8 and 9 advance them. -/
def sampleStep (p : Params) (s : State) : State :=
  let f := sampleFilter p s
  let base := oscOps * s.voices.length + lfoOps + coefOps + biquadOps
  ((((s.setFilter f).setLfs f.y0).setAmp (envStep ((s.nan p).from base) s.amp s.gate)).setT
    (Fp.add (s.nan p (base + 3)) s.t p.dt)).useDraws (sampleOps s.voices.length)

/-- The loop of R87: `n` sample steps, with the block they write, each frame holding the filtered value on every
channel (step 6 of R91, R92). -/
def renderFrames (p : Params) : Nat → State → State × List F32
  | 0, s => (s, [])
  | n + 1, s =>
    let s' := sampleStep p s
    let r := renderFrames p n s'
    (r.1, frame p s'.filter.y0 ++ r.2)

/-- `RENDER n` under the parameters `p` (R87): `n` sample steps, then the whole block is handed to the host. -/
def render (p : Params) (n : Nat) (s : State) : State :=
  (renderFrames p n s).1.handOver (renderFrames p n s).2

/-- `RENDER n` (R87). -/
def execRender (n : Nat) (s : State) : Host.Outcome State Fault Refusal :=
  .next (render Config.params n s)

end Sys2Proof.Machine
end

