-- ==== Sys2Proof/Machine/Dispatch.lean ====
section
/-! DEFINITION. One arm per command; each calls its meaning. -/

namespace Sys2Proof.Machine

def exec (i : Instr) (s : State) : Host.Outcome State Fault Refusal :=
  match i with
  | .nop => Sys2Proof.Machine.execNop s
  | .noteOn note => Sys2Proof.Machine.execNoteOn note s
  | .noteOff note => Sys2Proof.Machine.execNoteOff note s
  | .setCtrl index value => Sys2Proof.Machine.execSetCtrl index value s
  | .render n => Sys2Proof.Machine.execRender n s

end Sys2Proof.Machine
end

