-- ==== Sys2Proof/Machine/Step.lean ====
section
/-! DEFINITION. One step of the block: the next command word, executed whole and alone (spec 20_memory.md R35).  There is
no program counter (10_state.md R29): the block fetches from its command stream (R31). -/

namespace Sys2Proof.Machine

/-- One step.  With no word waiting "it is idle and holds all its state" (60_exceptions.md R112, R115).  A command is
executed as its meaning says; an ignored word is taken and changes nothing (R62). -/
def step (s : State) : Host.Outcome State Fault Refusal :=
  match takeWord Config.eventFirst s with
  | none => .next s
  | some (w, s') =>
    match decode w with
    | .ok i => exec i s'
    | .error _ => execIgnored s'

/-- `s` with the word of a table row waiting where `step` takes its next word (assumption log 7). -/
def State.withFetchWord (s : State) (nbits w : Nat) : State := s.withNextWord (tableWord nbits w)

end Sys2Proof.Machine
end

