-- ==== Sys2Proof/Machine/Assembler.lean ====
section
/-! DEFINITION. The assembly language (spec 30_encoding.md R56).  It is a notation for command words outside the block:
the block sees only the words.  What R56 leaves open of a line's spelling is in assumption log 12. -/

namespace Sys2Proof.Machine

/-- One line of assembly: the five commands, `.word`, and the three pseudo-commands (R56). -/
inductive AsmLine where
  | command (i : Instr)
  | word (w : Nat)
  | renderDefault
  | setCutoff (value : Nat)
  | setLfoRate (value : Nat)
  deriving DecidableEq, Repr

/-- Why the assembler gives no word for a line. -/
inductive AsmError where
  /-- "An assembler refuses an operand outside its range rather than masking it" (R56). -/
  | operandOutOfRange
  /-- The line is none of R56's. -/
  | notALine
  deriving DecidableEq, Repr

/-- The pseudo-commands' expansions (R56): `render` is `render N_DEF`, `set_cutoff v` is `set_ctrl 1, v`,
`set_lfo_rate v` is `set_ctrl 2, v`. -/
def AsmLine.expand (p : Params) : AsmLine → AsmLine
  | .renderDefault => .command (.render p.defaultFrames)
  | .setCutoff value => .command (.setCtrl 1 value)
  | .setLfoRate value => .command (.setCtrl 2 value)
  | line => line

/-- The word a line stands for (R56). -/
def AsmLine.assemble (p : Params) (line : AsmLine) : Except AsmError Word :=
  match line.expand p with
  | .command i => if i.WellFormed then .ok (encode i) else .error .operandOutOfRange
  | .word w => if w < 2 ^ 32 then .ok (BitVec.ofNat 32 w) else .error .operandOutOfRange
  | _ => .error .notALine

/-- The value of a digit in base 16. -/
def hexDigit (c : Char) : Option Nat :=
  if '0' ≤ c ∧ c ≤ '9' then some (c.toNat - '0'.toNat)
  else if 'a' ≤ c ∧ c ≤ 'f' then some (c.toNat - 'a'.toNat + 10)
  else if 'A' ≤ c ∧ c ≤ 'F' then some (c.toNat - 'A'.toNat + 10)
  else none

/-- The number that digits stand for in a base, after `acc`. -/
def digitsValue (base : Nat) : Nat → List Char → Option Nat
  | acc, [] => some acc
  | acc, c :: cs =>
    match hexDigit c with
    | some d => if d < base then digitsValue base (acc * base + d) cs else none
    | none => none

/-- A number, "decimal or `0x` hexadecimal" (R56). -/
def parseNumber : List Char → Option Nat
  | [] => none
  | '0' :: 'x' :: c :: cs => digitsValue 16 0 (c :: cs)
  | cs => digitsValue 10 0 cs

/-- White space between the words of a line. -/
def isBlank (c : Char) : Bool := c == ' ' || c == '\t' || c == '\r'

/-- The word begun, if any; its letters stand last first. -/
def wordBegun (begun : List Char) : List (List Char) := if begun.isEmpty then [] else [begun.reverse]

/-- The words of a line, a comma being a word of its own; the first argument holds the letters of the word begun,
last letter first.  A `;` starts a comment that runs to the end of the line (R56). -/
def lineWords : List Char → List Char → List (List Char)
  | begun, [] => wordBegun begun
  | begun, c :: cs =>
    if c == ';' then wordBegun begun
    else if isBlank c then wordBegun begun ++ lineWords [] cs
    else if c == ',' then wordBegun begun ++ [','] :: lineWords [] cs
    else lineWords (c :: begun) cs

/-- A line with one operand. -/
def parseUnary (name : List Char) (n : Nat) : Option AsmLine :=
  if name = "note_on".toList then some (.command (.noteOn n))
  else if name = "note_off".toList then some (.command (.noteOff n))
  else if name = "render".toList then some (.command (.render n))
  else if name = ".word".toList then some (.word n)
  else if name = "set_cutoff".toList then some (.setCutoff n)
  else if name = "set_lfo_rate".toList then some (.setLfoRate n)
  else none

/-- A line's words as a line of R56; `none` inside for a line with no words. -/
def parseWords : List (List Char) → Except AsmError (Option AsmLine)
  | [] => .ok none
  | [name] =>
    if name = "nop".toList then .ok (some (.command .nop))
    else if name = "render".toList then .ok (some .renderDefault)
    else .error .notALine
  | [name, a] =>
    match (parseNumber a).bind (parseUnary name) with
    | some line => .ok (some line)
    | none => .error .notALine
  | [name, a, [','], b] =>
    match parseNumber a, parseNumber b with
    | some index, some value =>
      if name = "set_ctrl".toList then .ok (some (.command (.setCtrl index value)))
      else .error .notALine
    | _, _ => .error .notALine
  | _ => .error .notALine

/-- The words of a program's lines, one command a line (R56); the first error ends it. -/
def assembleLines (p : Params) : List (List Char) → Except AsmError (List Word)
  | [] => .ok []
  | line :: lines =>
    match parseWords (lineWords [] line) with
    | .error e => .error e
    | .ok none => assembleLines p lines
    | .ok (some asm) =>
      match asm.assemble p, assembleLines p lines with
      | .ok w, .ok ws => .ok (w :: ws)
      | .error e, _ => .error e
      | .ok _, .error e => .error e

/-- The lines of a text; the first argument holds the letters of the line begun, last letter first. -/
def textLines : List Char → List Char → List (List Char)
  | begun, [] => [begun.reverse]
  | begun, c :: cs => if c == '\n' then begun.reverse :: textLines [] cs else textLines (c :: begun) cs

/-- The words of an assembly text (R56). -/
def assembleText (p : Params) (text : String) : Except AsmError (List Word) :=
  assembleLines p (textLines [] text.toList)

end Sys2Proof.Machine
end

