-- ==== Sys2Proof/Machine/Transport.lean ====
section
/-! DEFINITION. A transport that carries command words as bytes (spec 20_memory.md R34, 30_encoding.md R55): four bytes a
word, bits 31..24 first.  The block itself sees whole words only (R36). -/

namespace Sys2Proof.Machine

/-- The word four bytes carry, the first byte being the opcode (R34). -/
def wordOfBytes (b0 b1 b2 b3 : Byte) : Word :=
  BitVec.ofNat 32 (b0.toNat * 2 ^ 24 + b1.toNat * 2 ^ 16 + b2.toNat * 2 ^ 8 + b3.toNat)

/-- The four bytes of a word, in the order they are sent (R34). -/
def bytesOfWord (w : Word) : List Byte :=
  [BitVec.ofNat 8 (field w 31 24), BitVec.ofNat 8 (field w 23 16),
    BitVec.ofNat 8 (field w 15 8), BitVec.ofNat 8 (field w 7 0)]

/-- The words that a string of bytes carries, and the bytes at its end that are not yet a whole word. -/
def wordsOfBytes : List Byte → List Word × List Byte
  | b0 :: b1 :: b2 :: b3 :: rest =>
    let r := wordsOfBytes rest
    (wordOfBytes b0 b1 b2 b3 :: r.1, r.2)
  | rest => ([], rest)

/-- The verdict on the first four bytes of a string and the bytes after them; `none` while fewer than four have
come. -/
def decodeBytes : List Byte → Option (Except Ignored Instr × List Byte)
  | b0 :: b1 :: b2 :: b3 :: rest => some (decode (wordOfBytes b0 b1 b2 b3), rest)
  | _ => none

end Sys2Proof.Machine
end

