-- ==== Sys2Proof/Safety.lean ====
section
/-! DEFINITION. The terms that claims about the block are stated in: runs, the orders of the two agents' words, what a
state's registers may hold, what an exact result rounds to, and which states the host cannot tell apart. -/

namespace Sys2Proof.Safety

open Sys2Proof.Machine

/-! ### Runs -/

/-- `k` steps of the block. -/
def runSteps (k : Nat) (s : State) : Host.Outcome State Fault Refusal := core.run k s

/-- Commands executed one after the other, stopping at the first fault or refusal. -/
def runCommands : List Instr → State → Host.Outcome State Fault Refusal
  | [], s => .next s
  | i :: rest, s =>
    match exec i s with
    | .next s' => runCommands rest s'
    | .fault r => .fault r
    | .refused r => .refused r

/-- Command words executed one after the other: each as its command, or ignored (R62). -/
def runWords : List Word → State → Host.Outcome State Fault Refusal
  | [], s => .next s
  | w :: rest, s =>
    match (match decode w with | .ok i => exec i s | .error _ => execIgnored s) with
    | .next s' => runWords rest s'
    | .fault r => .fault r
    | .refused r => .refused r

/-- The state after `n` sample steps. -/
def sampleSteps (p : Params) : Nat → State → State
  | 0, s => s
  | n + 1, s => sampleSteps p n (sampleStep p s)

/-! ### The order of the two agents' words (R38, R39) -/

/-- `ws` is an interleaving of `es` and `rs` that keeps the order of each. -/
inductive Interleaving : List Word → List Word → List Word → Prop where
  | done : Interleaving [] [] []
  | event {e : Word} {es rs ws : List Word} : Interleaving es rs ws → Interleaving (e :: es) rs (e :: ws)
  | render {r : Word} {es rs ws : List Word} : Interleaving es rs ws → Interleaving es (r :: rs) (r :: ws)

/-- The words the block takes in its next `k` steps when `eventFirst` makes the free choices. -/
def wordsTaken (eventFirst : Nat → Bool) : Nat → State → List Word
  | 0, _ => []
  | k + 1, s =>
    match takeWord eventFirst s with
    | none => []
    | some (w, s') => w :: wordsTaken eventFirst k s'

/-- The number of words waiting. -/
def waiting (s : State) : Nat := s.eventQueue.length + s.renderQueue.length

/-! ### What registers may hold -/

/-- One of the 128 values a controller can be set to (R17). -/
abbrev IsControllerValue (x : F32) : Prop := ∃ v, v < 128 ∧ x = controllerValue v

/-- An entry made by NOTE_ON: a note in 0..127 with the frequency of that note (R19, R20). -/
def IsVoice (v : Voice) : Prop := v.note < 128 ∧ ∃ nan, v.freq = freq Config.params nan v.note

/-- What the spec says of the registers that are not advanced by arithmetic: `GATE` is +0.0 or 1.0 (R16), the
controllers hold controller values (R17), the voice table holds entries of NOTE_ON (R19, R20), `Q` and `RES_PCT` are
1.0 (R27), and every output block is whole frames (R32). -/
structure RegistersLegal (s : State) : Prop where
  gate : s.gate = k0 ∨ s.gate = k1
  ctrl1 : IsControllerValue s.ctrl1
  ctrl2 : IsControllerValue s.ctrl2
  ctrl3 : IsControllerValue s.ctrl3
  ctrl4 : IsControllerValue s.ctrl4
  voices : ∀ v ∈ s.voices, IsVoice v
  q : s.filter.q = k1
  resPct : s.filter.resPct = k1
  output : ∀ b ∈ s.output, b.length % Config.params.channels = 0

/-- `T` is at most 512.0 and not negative (R22, R23): for values that are not negative the bits are ordered as the
values are. -/
def TimeLegal (s : State) : Prop := s.t.toNat ≤ 0x44000000

/-- `AMP` is in [0, 1 − 2^-19], and +0.0 as long as `GATE` is (R67). -/
structure EnvelopeLegal (s : State) : Prop where
  gate : s.gate = k0 ∨ s.gate = k1
  amp : s.amp.toNat ≤ 0x3F7FFFE0
  closed : s.gate = k0 → s.amp = k0

/-! ### Rounding (R8) -/

/-- The least size, in units of 2^-149, that rounds to infinity: half a unit in the last place above the greatest
finite value. -/
def overflowUnits : Nat := (2 ^ 25 - 1) * 2 ^ 252

/-- `r` is finite, no finite value is nearer to `num / den` units of 2^-149, and where another value is as near,
`r` is the one with the even last bit. -/
def IsNearestEven (num : Int) (den : Nat) (r : F32) : Prop :=
  Fp.isFinite r = true ∧
    ∀ c : F32, Fp.isFinite c = true →
      |Fp.value r * den - num| ≤ |Fp.value c * den - num| ∧
        (|Fp.value r * den - num| = |Fp.value c * den - num| → Fp.value c ≠ Fp.value r →
          r.toNat % 2 = 0)

/-- `r` is the result of an operation whose exact result is `num / den` units of 2^-149: the infinity of its sign when
that is too large, else the nearest value, ties to even. -/
def IsRounded (num : Int) (den : Nat) (r : F32) : Prop :=
  if (overflowUnits : Int) * den ≤ |num| then r = Fp.ofMag (decide (num < 0)) Fp.infMag
  else IsNearestEven num den r

/-! ### What the host can tell apart -/

/-- Two states that agree on every register some rule reads before it is written again, on the words waiting, on the
free values to come, and on the output so far.  They may differ in `CTRL3`, `CTRL4` (R18), `LFS` (R21), `RES_PCT`
(R27), `CUTOFF_PCT`, `Q`, the coefficients and `Y0` (R26). -/
structure SameToHost (s s' : State) : Prop where
  amp : s.amp = s'.amp
  gate : s.gate = s'.gate
  ctrl1 : s.ctrl1 = s'.ctrl1
  ctrl2 : s.ctrl2 = s'.ctrl2
  voices : s.voices = s'.voices
  t : s.t = s'.t
  x1 : s.filter.x1 = s'.filter.x1
  x2 : s.filter.x2 = s'.filter.x2
  y1 : s.filter.y1 = s'.filter.y1
  y2 : s.filter.y2 = s'.filter.y2
  eventQueue : s.eventQueue = s'.eventQueue
  renderQueue : s.renderQueue = s'.renderQueue
  output : s.output = s'.output
  draws : s.draws = s'.draws
  turns : s.turns = s'.turns

/-! ### Counting voices (R63) -/

/-- The number of NOTE_ON commands whose note has had no NOTE_OFF after them. -/
def heldNotes : List Instr → Nat
  | [] => 0
  | .noteOn note :: rest => (if Instr.noteOff note ∈ rest then 0 else 1) + heldNotes rest
  | _ :: rest => heldNotes rest

/-- A NOTE_ON or a NOTE_OFF. -/
def isNoteCommand : Instr → Bool
  | .noteOn _ => true
  | .noteOff _ => true
  | .nop => false
  | .setCtrl _ _ => false
  | .render _ => false

end Sys2Proof.Safety
end

