-- ==== Sys2Proof/Certificates/Slice0/Obligations.lean ====
section
/-! DEFINITION. The statements for the provers.  Each docstring names the rule of the spec it formalises.  A clause that
rests on a choice of the model's own says so and names the assumption log's entry. -/

open Sys2Proof Sys2Proof.Machine Sys2Proof.Safety

/-! ### Encoding -/

/-- R48 with R46 and R56: no bit of an operand is dropped between the encoder and the decoder. -/
def Obligations.DecodeOfEncodeIsTheCommand : Prop :=
  ∀ i : Instr, i.WellFormed = true → decode (encode i) = .ok i

/-- R48 with R46: a word has one meaning; the command it decodes to is well formed and encodes to that word. -/
def Obligations.EncodeOfDecodeIsTheWord : Prop :=
  ∀ (w : Word) (i : Instr), decode w = .ok i → i.WellFormed = true ∧ encode i = w

/-- R47: a word decodes to a command of a row exactly when it matches the row's mask and match, and no word matches two
rows. -/
def Obligations.DecoderFollowsOpcodeMap : Prop :=
  ∀ w : Word,
    (∀ r ∈ opcodeTable,
      (r.matchesWord w = true ↔ ∃ i, decode w = .ok i ∧ i.mnemonic = r.mnemonic)) ∧
    (∀ r ∈ opcodeTable, ∀ r' ∈ opcodeTable,
      r.matchesWord w = true → r'.matchesWord w = true → r = r')

/-- R52 (with R53 for the last case): the words whose verdict is IGNORED. -/
def Obligations.IgnoredWordsAreMalformedOrUnassigned : Prop :=
  ∀ w : Word,
    (∃ r, decode w = .error r) ↔
      (opField w = 0 ∧ w ≠ 0) ∨
      ((opField w = 1 ∨ opField w = 2) ∧ (field w 23 23 ≠ 0 ∨ field w 15 0 ≠ 0)) ∨
      (opField w = 3 ∧ field w 15 7 ≠ 0) ∨
      (opField w = 4 ∧ field w 23 16 ≠ 0) ∨
      5 ≤ opField w

/-- R47, R48, R52, R53 on words written out from the formats of R46 (vectors L2-DEC). -/
def Obligations.SampleWordsDecodeAsWritten : Prop :=
  decode 0x00000000 = .ok .nop ∧
  decode 0x01450000 = .ok (.noteOn 69) ∧
  decode 0x017F0000 = .ok (.noteOn 127) ∧
  decode 0x023C0000 = .ok (.noteOff 60) ∧
  decode 0x0301007F = .ok (.setCtrl 1 127) ∧
  decode 0x03FF0040 = .ok (.setCtrl 255 64) ∧
  decode 0x0400FFFF = .ok (.render 65535) ∧
  decode 0x00000001 = .error .malformedNop ∧
  decode 0x01800000 = .error .malformedNoteOn ∧
  decode 0x03010080 = .error .malformedSetCtrl ∧
  decode 0x04010004 = .error .malformedRender ∧
  decode 0x05000000 = .error (.unassignedOpcode 5)

/-- R34, R55: four bytes a word, bits 31..24 first; what a transport sends is what the block receives. -/
def Obligations.ByteTransportCarriesTheWords : Prop :=
  (∀ ws : List Word, wordsOfBytes (ws.flatMap bytesOfWord) = (ws, [])) ∧
  (∀ (w : Word) (rest : List Byte), decodeBytes (bytesOfWord w ++ rest) = some (decode w, rest)) ∧
  (∀ w : Word, (bytesOfWord w).map BitVec.toNat =
    [field w 31 24, field w 23 16, field w 15 8, field w 7 0])

/-- R56: a command line is assembled exactly when its operands are in range, to the word of the table; a pseudo-command
is the command it expands to. -/
def Obligations.AssemblerRefusesOperandsOutOfRange : Prop :=
  (∀ (p : Params) (i : Instr) (w : Word),
    (AsmLine.command i).assemble p = .ok w ↔ i.WellFormed = true ∧ w = encode i) ∧
  (∀ (p : Params) (n : Nat) (w : Word),
    (AsmLine.word n).assemble p = .ok w ↔ w.toNat = n) ∧
  (∀ p : Params,
    AsmLine.renderDefault.assemble p = (AsmLine.command (.render p.defaultFrames)).assemble p) ∧
  (∀ (p : Params) (v : Nat),
    (AsmLine.setCutoff v).assemble p = (AsmLine.command (.setCtrl 1 v)).assemble p ∧
    (AsmLine.setLfoRate v).assemble p = (AsmLine.command (.setCtrl 2 v)).assemble p)

/-! ### The step and the order of commands -/

/-- R35, R48: the next step is the command that the next word decodes to, executed in the state with that word taken.
Which agent's word is next is R38's where one agent has words, and R39's free choice where both have. -/
def Obligations.StepRunsTheDecodedCommand : Prop :=
  ∀ (s : State) (w : Word) (i : Instr), decode w = .ok i →
    (∀ es, s.eventQueue = w :: es → s.renderQueue = [] →
      step s = exec i (s.setQueues es [] s.turns)) ∧
    (∀ rs, s.eventQueue = [] → s.renderQueue = w :: rs →
      step s = exec i (s.setQueues [] rs s.turns)) ∧
    (∀ es r rs j, s.eventQueue = w :: es → s.renderQueue = r :: rs → decode r = .ok j →
      step s =
        if Config.eventFirst s.turns = true then exec i (s.setQueues es (r :: rs) (s.turns + 1))
        else exec j (s.setQueues (w :: es) rs (s.turns + 1)))

/-- The host's interface (assumption log 7): a table row's word placed by `withFetchWord` is what the next step runs. -/
def Obligations.PlacedWordIsTheNextCommand : Prop :=
  ∀ (s : State) (nbits w : Nat) (i : Instr), decodeTableWord nbits w = some i →
    step (s.withFetchWord nbits w) = exec i (s.setQueues s.eventQueue [] s.turns)

/-- R62: an ignored word is taken from its agent's words; no register changes and no output is produced. -/
def Obligations.IgnoredWordChangesNothing : Prop :=
  ∀ (s s' : State) (w : Word) (r : Ignored),
    takeWord Config.eventFirst s = some (w, s') → decode w = .error r →
      step s = .next s' ∧ s' = s.setQueues s'.eventQueue s'.renderQueue s'.turns

/-- R101: no command raises an exception, and no step does, whatever the word. -/
def Obligations.NoCommandAndNoStepStops : Prop :=
  (∀ (i : Instr) (s : State), ∃ t, exec i s = .next t) ∧ (∀ s : State, ∃ t, step s = .next t)

/-- R112, R115: between commands the block is idle and holds all its state. -/
def Obligations.IdleBlockHoldsItsState : Prop :=
  ∀ s : State, s.eventQueue = [] → s.renderQueue = [] → step s = .next s

/-- R38, R99: whatever makes the free choices, the words are taken in an order that keeps each agent's own, none merged
and none dropped. -/
def Obligations.WordsAreTakenInAnInterleaving : Prop :=
  ∀ (eventFirst : Nat → Bool) (s : State),
    Interleaving s.eventQueue s.renderQueue (wordsTaken eventFirst (waiting s) s)

/-- R39: every interleaving that keeps each agent's order is an execution. -/
def Obligations.EveryInterleavingIsAnExecution : Prop :=
  ∀ (s : State) (ws : List Word), Interleaving s.eventQueue s.renderQueue ws →
    ∃ eventFirst : Nat → Bool, wordsTaken eventFirst (waiting s) s = ws

/-- R35, R41: a run is the execution of the words taken, one after the other, each whole and alone. -/
def Obligations.RunExecutesTheWordsInOrder : Prop :=
  ∀ (k : Nat) (s : State), ∃ t u,
    runSteps k s = .next t ∧ runWords (wordsTaken Config.eventFirst k s) s = .next u ∧
      t = u.setQueues t.eventQueue t.renderQueue t.turns

/-- R35: as many steps as words were waiting leave none waiting. -/
def Obligations.AsManyStepsAsWordsWaitingLeaveNone : Prop :=
  ∀ s : State, ∃ t, runSteps (waiting s) s = .next t ∧ t.eventQueue = [] ∧ t.renderQueue = []

/-- R105: what a word does does not depend on which agent issued it. -/
def Obligations.IssuerOfAWordDoesNotMatter : Prop :=
  ∀ (s : State) (w : Word) (turns : Nat), ∃ t,
    step (s.setQueues [w] [] turns) = .next t ∧ step (s.setQueues [] [w] turns) = .next t

/-! ### The commands -/

/-- R60: NOP does nothing. -/
def Obligations.NopChangesNothing : Prop :=
  ∀ s : State, exec .nop s = .next s

/-- R57: NOTE_ON appends its voice, unless a bounded table is full, and sets GATE to 1.0 in every case; nothing else
changes but the model's own count of NaN draws (assumption log 2).  The block of `exec` is unbounded (R6). -/
def Obligations.NoteOnAppendsItsVoiceAndSetsGate : Prop :=
  (∀ (note : Nat) (s : State),
    exec (.noteOn note) s = .next { s with
      voices := s.voices ++ [⟨note, freq Config.params (s.nan Config.params) note⟩]
      gate := k1
      draws := s.draws + 3 }) ∧
  (∀ (p : Params) (note : Nat) (s : State),
    (p.voiceCapacity = none ∨ ∃ vmax, p.voiceCapacity = some vmax ∧ s.voices.length < vmax) →
      noteOn p note s = { s with
        voices := s.voices ++ [⟨note, freq p (s.nan p) note⟩]
        gate := k1
        draws := s.draws + 3 }) ∧
  (∀ (p : Params) (note vmax : Nat) (s : State),
    p.voiceCapacity = some vmax → vmax ≤ s.voices.length → noteOn p note s = { s with gate := k1 })

/-- R58: the frequency of a note; `fp(note) - 69.0` is exact; note 69 is 440.0 exactly under P2, and note 81 is 880.0
within two units in the last place under P3 (the tolerance is the model's reading, assumption log 4). -/
def Obligations.NoteFrequencyIsEqualTempered : Prop :=
  (∀ (p : Params) (nan : Draws) (note : Nat),
    freq p nan note =
      Fp.mul (nan 2) k440 (p.pow2 (Fp.div (nan 1) (Fp.sub (nan 0) (Fp.ofNat note) k69) k12))) ∧
  (∀ (d : F32) (note : Nat), note < 128 →
    Fp.value (Fp.sub d (Fp.ofNat note) k69) = ((note : Int) - 69) * 2 ^ 149) ∧
  (∀ (p : Params) (nan : Draws), p.Properties →
    freq p nan 69 = k440 ∧
      0x445BFFFE ≤ (freq p nan 81).toNat ∧ (freq p nan 81).toNat ≤ 0x445C0002)

/-- R59: NOTE_OFF removes every entry of its note, keeps the others in order, sets GATE to 1.0 and changes nothing
else. -/
def Obligations.NoteOffRemovesEveryEntryOfItsNote : Prop :=
  ∀ (note : Nat) (s : State),
    exec (.noteOff note) s = .next { s with
      voices := s.voices.filter (fun e => e.note != note)
      gate := k1 }

/-- R61: SET_CTRL writes `fp(value) / 127.0` to the controller its index selects and nothing else; an index outside 1..4
is ignored; 0 gives +0.0 and 127 gives 1.0. -/
def Obligations.SetCtrlWritesItsController : Prop :=
  (∀ (value : Nat) (s : State) (d : F32),
    exec (.setCtrl 1 value) s = .next { s with ctrl1 := Fp.div d (Fp.ofNat value) k127 } ∧
    exec (.setCtrl 2 value) s = .next { s with ctrl2 := Fp.div d (Fp.ofNat value) k127 } ∧
    exec (.setCtrl 3 value) s = .next { s with ctrl3 := Fp.div d (Fp.ofNat value) k127 } ∧
    exec (.setCtrl 4 value) s = .next { s with ctrl4 := Fp.div d (Fp.ofNat value) k127 }) ∧
  (∀ (index value : Nat) (s : State), ¬(1 ≤ index ∧ index ≤ 4) →
    exec (.setCtrl index value) s = .next s) ∧
  (∀ d : F32, Fp.div d (Fp.ofNat 0) k127 = k0 ∧ Fp.div d (Fp.ofNat 127) k127 = k1)

/-- R28, R109: the event commands leave alone all that only sample steps write, the output stream, and the words
waiting; the note commands leave the controllers alone, SET_CTRL leaves the voice table, GATE and the count of draws
alone. -/
def Obligations.EventCommandsLeaveTheRest : Prop :=
  ∀ (i : Instr) (s t : State), (∀ n, i ≠ .render n) → exec i s = .next t →
    (t.amp = s.amp ∧ t.lfs = s.lfs ∧ t.t = s.t ∧ t.filter = s.filter ∧ t.output = s.output ∧
      t.eventQueue = s.eventQueue ∧ t.renderQueue = s.renderQueue ∧ t.turns = s.turns) ∧
    ((∀ index value, i ≠ .setCtrl index value) →
      t.ctrl1 = s.ctrl1 ∧ t.ctrl2 = s.ctrl2 ∧ t.ctrl3 = s.ctrl3 ∧ t.ctrl4 = s.ctrl4) ∧
    (∀ index value, i = .setCtrl index value →
      t.voices = s.voices ∧ t.gate = s.gate ∧ t.draws = s.draws ∧
        (index ≠ 1 → t.ctrl1 = s.ctrl1) ∧ (index ≠ 2 → t.ctrl2 = s.ctrl2) ∧
        (index ≠ 3 → t.ctrl3 = s.ctrl3) ∧ (index ≠ 4 → t.ctrl4 = s.ctrl4))

/-- R87 with R32 and R92: RENDER runs `n` sample steps and hands over one block, in which each frame holds on both
channels the value `Y0` that its sample step left.  (The block is the spec's own, with `C` = 2.) -/
def Obligations.RenderRunsItsSampleSteps : Prop :=
  ∀ (n : Nat) (s : State),
    exec (.render n) s = .next ((sampleSteps Config.params n s).handOver
      ((List.range n).flatMap (fun i =>
        [(sampleSteps Config.params (i + 1) s).filter.y0,
          (sampleSteps Config.params (i + 1) s).filter.y0])))

/-- R88: `RENDER 0` changes no register and hands over an empty block. -/
def Obligations.RenderZeroHandsOverAnEmptyBlock : Prop :=
  ∀ s : State, exec (.render 0) s = .next { s with output := s.output ++ [[]] }

/-- R90: the frames are the same however the host splits them into blocks, and so is the state left. -/
def Obligations.RenderSplitsInvisibly : Prop :=
  ∀ (a b : Nat) (s : State), ∃ s1 s2 s3 blockA blockB,
    exec (.render a) s = .next s1 ∧ exec (.render b) s1 = .next s2 ∧
      exec (.render (a + b)) s = .next s3 ∧
      s2.output = s.output ++ [blockA, blockB] ∧ s3.output = s.output ++ [blockA ++ blockB] ∧
      { s2 with output := s3.output } = s3

/-- R32: position `k` of a block holds channel `k mod C` of frame `k div C`, and every channel of a frame holds the same
value, whatever the number of channels. -/
def Obligations.OutputBlockIsInterleavedFrames : Prop :=
  ∀ (p : Params) (n : Nat) (s : State), ∃ block,
    (render p n s).output = s.output ++ [block] ∧ block.length = p.channels * n ∧
      ∀ k, k < p.channels * n →
        block[k]? = some (sampleSteps p (k / p.channels + 1) s).filter.y0

/-- R91 and R92: the sample step, unit by unit; steps 2 and 3 read `T` and `AMP` before steps 8 and 9 advance them, and
the step's frame, the same value on every channel, stands in the block before the frames after it.  The
numbers of the NaN draws are the model's own (assumption log 2). -/
def Obligations.SampleStepFollowsThePipeline : Prop :=
  ∀ (p : Params) (s : State),
    let nan := s.nan p
    let base := 4 * s.voices.length
    let signal := oscSum p nan s.voices s.amp s.t
    let cutoff := lfoMap p (nan.from base) s.ctrl1 s.ctrl2 s.t
    let f := biquad (nan.from (base + 21)) signal (coef p (nan.from (base + 8)) cutoff s.filter)
    (sampleStep p s = { s with
      filter := f
      lfs := f.y0
      amp := envStep (nan.from (base + 31)) s.amp s.gate
      t := Fp.add (nan (base + 34)) s.t p.dt
      draws := s.draws + (base + 35) }) ∧
    ∀ n, renderFrames p (n + 1) s =
      ((renderFrames p n (sampleStep p s)).1,
        List.replicate p.channels f.y0 ++ (renderFrames p n (sampleStep p s)).2)

/-- R28, R40: RENDER leaves alone the registers that commands write, `RES_PCT` and the words waiting, and only adds to
the output stream. -/
def Obligations.RenderLeavesTheCommandRegisters : Prop :=
  ∀ (n : Nat) (s t : State), exec (.render n) s = .next t →
    t.gate = s.gate ∧ t.voices = s.voices ∧ t.ctrl1 = s.ctrl1 ∧ t.ctrl2 = s.ctrl2 ∧
      t.ctrl3 = s.ctrl3 ∧ t.ctrl4 = s.ctrl4 ∧ t.filter.resPct = s.filter.resPct ∧
      t.eventQueue = s.eventQueue ∧ t.renderQueue = s.renderQueue ∧ t.turns = s.turns ∧
      ∃ block, t.output = s.output ++ [block]

/-! ### The envelope smoother -/

/-- R66: a sample step sets AMP to `AMP + ((GATE - AMP) / K_ENV_DIV)`, each operation rounded once; with both at +0.0 it
stays +0.0. -/
def Obligations.SampleStepAdvancesTheEnvelope : Prop :=
  (∀ (p : Params) (s : State), ∃ nan : Draws,
    (sampleStep p s).amp =
      Fp.add (nan 2) s.amp (Fp.div (nan 1) (Fp.sub (nan 0) s.gate s.amp) kEnvDiv)) ∧
  (∀ (p : Params) (s : State), s.gate = k0 → s.amp = k0 → (sampleStep p s).amp = k0)

/-- R67: with the gate at 1.0 the envelope rises strictly until it is 1 − 2^-19 (0x3F7FFFE0) and then stays; after one
step it is at least 0.015625.  (The bits of values that are not negative are ordered as the values.) -/
def Obligations.EnvelopeRisesUntilItStalls : Prop :=
  ∀ (nan : Draws) (amp : F32), amp.toNat ≤ 0x3F7FFFE0 →
    0x3C800000 ≤ (envStep nan amp k1).toNat ∧ (envStep nan amp k1).toNat ≤ 0x3F7FFFE0 ∧
      (amp.toNat < 0x3F7FFFE0 → amp.toNat < (envStep nan amp k1).toNat) ∧
      (amp.toNat = 0x3F7FFFE0 → envStep nan amp k1 = amp)

/-! ### The oscillator summer -/

/-- R69 and R70: no voice gives +0.0; each voice, in insertion order, adds 1.0 if `SIN((K_TWO_PI * freq) * T) * amp_r`
is above 0.0 and −1.0 if it is not. -/
def Obligations.OscillatorSumsTheSignsInOrder : Prop :=
  ∀ (p : Params) (nan : Draws) (amp t : F32),
    oscSum p nan [] amp t = k0 ∧
    ∀ (vs : List Voice) (v : Voice),
      oscSum p nan (vs ++ [v]) amp t =
        Fp.add (nan (4 * vs.length + 3)) (oscSum p nan vs amp t)
          (if Fp.gt
            (Fp.mul (nan (4 * vs.length + 2))
              (p.sin (Fp.mul (nan (4 * vs.length + 1))
                (Fp.mul (nan (4 * vs.length)) kTwoPi v.freq) t)) amp) k0
          then k1 else kMinus1)

/-- R71: for `n` up to 2^24 voices the sum is one of `-n, -n+2, ..., n`, never −0.0. -/
def Obligations.OscillatorSumIsAnInteger : Prop :=
  ∀ (p : Params) (nan : Draws) (vs : List Voice) (amp t : F32), vs.length ≤ 2 ^ 24 →
    oscSum p nan vs amp t ≠ 0x80000000 ∧
      ∃ up, up ≤ vs.length ∧
        Fp.isFinite (oscSum p nan vs amp t) = true ∧
        Fp.value (oscSum p nan vs amp t) = (2 * (up : Int) - vs.length) * 2 ^ 149

/-- R69 (its corner cases): with `amp_r` at +0.0 every voice contributes −1.0, whatever its sine. -/
def Obligations.ClosedEnvelopeForcesMinusOnePerVoice : Prop :=
  ∀ (p : Params) (nan : Draws) (vs : List Voice) (t : F32), vs.length ≤ 2 ^ 24 →
    Fp.value (oscSum p nan vs k0 t) = -(vs.length : Int) * 2 ^ 149

/-- R72: a finite envelope of at least 0.015625 enters only by its sign, for every sine of magnitude above 2^-144. -/
def Obligations.EnvelopeGatesBySignOnly : Prop :=
  ∀ (d raw amp : F32), 0x3C800000 ≤ amp.toNat → amp.toNat < 0x7F800000 → 32 < Fp.mag raw →
    Fp.gt (Fp.mul d raw amp) k0 = Fp.gt raw k0

/-! ### The LFO, the coefficients and the filter -/

/-- R81: the cutoff of a sample, operation by operation. -/
def Obligations.LfoMapIsTheFormula : Prop :=
  ∀ (p : Params) (nan : Draws) (ctrl1 ctrl2 t : F32),
    let cutoffValue := Fp.mul (nan 0) k100 ctrl1
    let lfoHz := Fp.mul (nan 1) k50 ctrl2
    let s := p.sin (Fp.mul (nan 3) (Fp.mul (nan 2) kTwoPi lfoHz) t)
    lfoMap p nan ctrl1 ctrl2 t =
      Fp.add (nan 7) (Fp.div (nan 5) (Fp.mul (nan 4) s cutoffValue) k2)
        (Fp.div (nan 6) cutoffValue k2)

/-- R81 under P1 (the document's "constant at 50.0 for all t"): a stopped LFO holds the cutoff at half the depth. -/
def Obligations.StoppedLfoHoldsHalfTheDepth : Prop :=
  ∀ (p : Params) (nan : Draws) (v : Nat) (t : F32), p.Properties → v < 128 → t.toNat ≤ 0x44000000 →
    lfoMap p nan (controllerValue v) k0 t =
        Fp.div (nan 6) (Fp.mul (nan 0) k100 (controllerValue v)) k2 ∧
      lfoMap p nan (controllerValue 127) k0 t = 0x42480000

/-- R81 under P6: the cutoff sweeps between 0.0 and the depth, which is at most 100.0 (bits of values that are not
negative are ordered as the values). -/
def Obligations.CutoffStaysWithinItsDepth : Prop :=
  ∀ (p : Params) (nan : Draws) (v1 v2 : Nat) (t : F32),
    p.Properties → v1 < 128 → v2 < 128 → t.toNat ≤ 0x44000000 →
      (lfoMap p nan (controllerValue v1) (controllerValue v2) t).toNat ≤
          (Fp.mul (nan 0) k100 (controllerValue v1)).toNat ∧
        (Fp.mul (nan 0) k100 (controllerValue v1)).toNat ≤ 0x42C80000

/-- R82: the coefficients, operation by operation, with the clamp of R83; `RES_PCT` and the delay line are kept; a cutoff
of 100.0 gives `f0 = K_MAXF` exactly under P5. -/
def Obligations.CoefficientsAreTheFormulas : Prop :=
  (∀ (p : Params) (nan : Draws) (cutoff : F32) (f : FilterState),
    let f0 := Fp.mul (nan 3)
      (p.exp (Fp.div (nan 2) (Fp.mul (nan 1) kLn2 (Fp.sub (nan 0) cutoff k100)) k10)) kMaxF
    let f0 := if p.nyquistClamp = true ∧ Fp.gt f0 p.clampLimit = true then p.clampLimit else f0
    let w0 := Fp.div (nan 5) (Fp.mul (nan 4) kTwoPi f0) p.rf
    let alpha := Fp.div (nan 7) (p.sin w0) (Fp.mul (nan 6) k2 kQ)
    let b1 := Fp.sub (nan 11) k1 (p.cos w0)
    coef p nan cutoff f = { f with
      cutoffPct := cutoff
      q := kQ
      a0 := Fp.add (nan 8) k1 alpha
      a1 := Fp.mul (nan 9) kMinus2 (p.cos w0)
      a2 := Fp.sub (nan 10) k1 alpha
      b1 := b1
      b0b2 := Fp.div (nan 12) b1 k2 }) ∧
  (∀ (p : Params) (nan : Draws), p.Properties → cornerFrequency p nan k100 = kMaxF)

/-- R83: the clamp limits `f0` to `CLAMP_LIMIT` and compares with `>`, so an equal `f0` and a NaN pass; with the clamp off
nothing changes. -/
def Obligations.NyquistClampLimitsTheFrequency : Prop :=
  ∀ (p : Params) (f0 : F32),
    (p.nyquistClamp = false → clampFrequency p f0 = f0) ∧
    (p.nyquistClamp = true →
      (Fp.gt f0 p.clampLimit = true → clampFrequency p f0 = p.clampLimit) ∧
      (Fp.gt f0 p.clampLimit = false → clampFrequency p f0 = f0) ∧
      (Fp.isNaN f0 = true → clampFrequency p f0 = f0) ∧
      (Fp.eq f0 p.clampLimit = true → clampFrequency p f0 = f0) ∧
      Fp.gt (clampFrequency p f0) p.clampLimit = false)

/-- R84 under P5 and P6: for every cutoff in [0.0, 100.0], `A0` is in [0.5, 1.5], so the division of R85 is never by
zero. -/
def Obligations.FilterDivisorIsAtLeastHalf : Prop :=
  ∀ (nan : Draws) (cutoff : F32) (f : FilterState), cutoff.toNat ≤ 0x42C80000 →
    0x3F000000 ≤ (coef Config.params nan cutoff f).a0.toNat ∧
      (coef Config.params nan cutoff f).a0.toNat ≤ 0x3FC00000

/-- R85: the filter update, operation by operation, and its four moves; the coefficients are kept. -/
def Obligations.BiquadIsTheFormula : Prop :=
  ∀ (nan : Draws) (x0 : F32) (f : FilterState),
    let acc := Fp.mul (nan 0) f.b0b2 x0
    let acc := Fp.add (nan 2) acc (Fp.mul (nan 1) f.b1 f.x1)
    let acc := Fp.add (nan 4) acc (Fp.mul (nan 3) f.b0b2 f.x2)
    let acc := Fp.sub (nan 6) acc (Fp.mul (nan 5) f.a1 f.y1)
    let acc := Fp.sub (nan 8) acc (Fp.mul (nan 7) f.a2 f.y2)
    let y := Fp.div (nan 9) acc f.a0
    biquad nan x0 f = { f with y0 := y, x2 := f.x1, y2 := f.y1, x1 := x0, y1 := y }

/-- R103, R122: once `Y1` or `Y2` holds a NaN, every later output value is one, and `Y1` holds a NaN after every later
sample step. -/
def Obligations.NaNInTheDelayLineStaysForEver : Prop :=
  ∀ (p : Params) (n : Nat) (s : State),
    Fp.isNaN s.filter.y1 = true ∨ Fp.isNaN s.filter.y2 = true →
      (0 < n → Fp.isNaN (render p n s).filter.y1 = true) ∧
      ∃ block, (render p n s).output = s.output ++ [block] ∧ ∀ y ∈ block, Fp.isNaN y = true

/-- R23: at `R` = 44100, `T` never falls, never passes 512.0, and once there stays. -/
def Obligations.TimeNeverFallsAndFreezes : Prop :=
  ∀ (d t : F32), t.toNat ≤ 0x44000000 →
    t.toNat ≤ (Fp.add d t Config.params.dt).toNat ∧
      (Fp.add d t Config.params.dt).toNat ≤ 0x44000000 ∧
      (t = 0x44000000 → Fp.add d t Config.params.dt = t)

/-! ### The arithmetic -/

/-- R8: sums and differences of finite values are rounded to nearest, ties to even, infinite when too large. -/
def Obligations.SumsAreCorrectlyRounded : Prop :=
  ∀ d a b : F32, Fp.isFinite a = true → Fp.isFinite b = true →
    IsRounded (Fp.value a + Fp.value b) 1 (Fp.add d a b) ∧
      IsRounded (Fp.value a - Fp.value b) 1 (Fp.sub d a b)

/-- R8: products of finite values are rounded to nearest, ties to even, infinite when too large. -/
def Obligations.ProductsAreCorrectlyRounded : Prop :=
  ∀ d a b : F32, Fp.isFinite a = true → Fp.isFinite b = true →
    IsRounded (Fp.value a * Fp.value b) (2 ^ 149) (Fp.mul d a b)

/-- R8: quotients of finite values by one that is not zero are rounded to nearest, ties to even, infinite when too
large. -/
def Obligations.QuotientsAreCorrectlyRounded : Prop :=
  ∀ d a b : F32, Fp.isFinite a = true → Fp.isFinite b = true → Fp.isZero b = false →
    IsRounded (Fp.value a * 2 ^ 149 * (Fp.value b).sign) (Fp.value b).natAbs (Fp.div d a b)

/-- R103: the operations that give a NaN are those with a NaN operand and the invalid ones, and the bits of the result
are the draw's. -/
def Obligations.NaNResultsAreTheDraw : Prop :=
  ∀ d a b : F32,
    (Fp.isNaN (Fp.add d a b) = true ↔
      Fp.isNaN a = true ∨ Fp.isNaN b = true ∨
        (Fp.isInf a = true ∧ Fp.isInf b = true ∧ Fp.sign a ≠ Fp.sign b)) ∧
    (Fp.isNaN (Fp.sub d a b) = true ↔
      Fp.isNaN a = true ∨ Fp.isNaN b = true ∨
        (Fp.isInf a = true ∧ Fp.isInf b = true ∧ Fp.sign a = Fp.sign b)) ∧
    (Fp.isNaN (Fp.mul d a b) = true ↔
      Fp.isNaN a = true ∨ Fp.isNaN b = true ∨
        (Fp.isInf a = true ∧ Fp.isZero b = true) ∨ (Fp.isZero a = true ∧ Fp.isInf b = true)) ∧
    (Fp.isNaN (Fp.div d a b) = true ↔
      Fp.isNaN a = true ∨ Fp.isNaN b = true ∨
        (Fp.isInf a = true ∧ Fp.isInf b = true) ∨ (Fp.isZero a = true ∧ Fp.isZero b = true)) ∧
    (Fp.isNaN (Fp.add d a b) = true → Fp.add d a b = Fp.nanOf d) ∧
    (Fp.isNaN (Fp.sub d a b) = true → Fp.sub d a b = Fp.nanOf d) ∧
    (Fp.isNaN (Fp.mul d a b) = true → Fp.mul d a b = Fp.nanOf d) ∧
    (Fp.isNaN (Fp.div d a b) = true → Fp.div d a b = Fp.nanOf d)

/-- R8: the corners that the correct rounding of finite values leaves open, as IEEE 754 has them (the spec adopts the
standard from general knowledge: assumption log 11).  An infinite operand of a sum or difference that is valid is its
result; a sum or difference that is exactly zero is -0 only where both terms are; a product with an infinity and a
quotient of an infinity or by zero are infinite, a finite value divided by an infinity is a zero; products and quotients
have the exclusive or of the signs. -/
def Obligations.InfinitiesAndZerosFollowIeee754 : Prop :=
  ∀ d a b : F32,
    (Fp.isInf a = true → Fp.isNaN (Fp.add d a b) = false → Fp.add d a b = a) ∧
    (Fp.isInf b = true → Fp.isNaN (Fp.add d a b) = false → Fp.add d a b = b) ∧
    (Fp.isInf a = true → Fp.isNaN (Fp.sub d a b) = false → Fp.sub d a b = a) ∧
    (Fp.isInf b = true → Fp.isNaN (Fp.sub d a b) = false → Fp.sub d a b = Fp.neg b) ∧
    (Fp.isFinite a = true → Fp.isFinite b = true → Fp.value a + Fp.value b = 0 →
      Fp.add d a b = if Fp.sign a = true ∧ Fp.sign b = true then 0x80000000 else 0) ∧
    (Fp.isFinite a = true → Fp.isFinite b = true → Fp.value a = Fp.value b →
      Fp.sub d a b = if Fp.sign a = true ∧ Fp.sign b = false then 0x80000000 else 0) ∧
    (Fp.isNaN (Fp.mul d a b) = false →
      Fp.sign (Fp.mul d a b) = (Fp.sign a != Fp.sign b) ∧
      (Fp.isInf a = true ∨ Fp.isInf b = true → Fp.isInf (Fp.mul d a b) = true)) ∧
    (Fp.isNaN (Fp.div d a b) = false →
      Fp.sign (Fp.div d a b) = (Fp.sign a != Fp.sign b) ∧
      (Fp.isInf a = true ∨ Fp.isZero b = true → Fp.isInf (Fp.div d a b) = true) ∧
      (Fp.isInf b = true → Fp.isZero (Fp.div d a b) = true))

/-- R8: `fp(n)` is exact for every integer below 2^24. -/
def Obligations.SmallIntegersConvertExactly : Prop :=
  ∀ n : Nat, n < 2 ^ 24 →
    Fp.isFinite (Fp.ofNat n) = true ∧ Fp.value (Fp.ofNat n) = (n : Int) * 2 ^ 149

/-- R12: the block's own functions have the properties P1 to P6, and its parameters are legal (R5). -/
def Obligations.ConfigurationHasTheProperties : Prop :=
  Config.params.Properties ∧ Config.params.wellFormed

/-! ### Reset and invariants -/

/-- R114 and R11: every register after power-on reset, no output pending, and the constants computed from `R` = 44100.
The two counters and the empty queues are the model's own (assumption log 9). -/
def Obligations.ResetSetsEveryRegister : Prop :=
  State.reset = {
    amp := k0, gate := k0, ctrl1 := k0, ctrl2 := k0, ctrl3 := k0, ctrl4 := k0, voices := [],
    lfs := k0, t := k0,
    filter := {
      cutoffPct := k1, resPct := k1, q := k1, a0 := k1, a1 := k1, a2 := k1, b0b2 := k1, b1 := k1,
      x1 := k1, x2 := k1, y0 := k1, y1 := k1, y2 := k1 },
    eventQueue := [], renderQueue := [], output := [], draws := 0, turns := 0 } ∧
  Config.params.rf = 0x472C4400 ∧ Config.params.dt = 0x37BE37C6 ∧
  Config.params.clampLimit = 0x46AA8B00

/-- The state after reset meets the three invariants below. -/
def Obligations.ResetMeetsTheInvariants : Prop :=
  RegistersLegal State.reset ∧ TimeLegal State.reset ∧ EnvelopeLegal State.reset

/-- R16, R17, R19, R20, R27, R32: what those rules say the registers and the output hold, every step keeps. -/
def Obligations.StepKeepsRegistersLegal : Prop :=
  ∀ s t : State, RegistersLegal s → step s = .next t → RegistersLegal t

/-- R22, R23: every step keeps `T` between +0.0 and 512.0, and no step lowers it. -/
def Obligations.StepKeepsTimeLegal : Prop :=
  ∀ s t : State, TimeLegal s → step s = .next t → TimeLegal t ∧ s.t.toNat ≤ t.t.toNat

/-- R67: every step keeps `AMP` in [0, 1 − 2^-19], and +0.0 until a note command sets `GATE`. -/
def Obligations.StepKeepsEnvelopeLegal : Prop :=
  ∀ s t : State, EnvelopeLegal s → step s = .next t → EnvelopeLegal t

/-- R16: `GATE`, once 1.0, is 1.0 for ever after, and from then on `AMP` never falls: there is no release (R67, R121). -/
def Obligations.GateAndEnvelopeNeverFall : Prop :=
  ∀ s t : State, s.gate = k1 → s.amp.toNat ≤ 0x3F7FFFE0 → step s = .next t →
    t.gate = k1 ∧ s.amp.toNat ≤ t.amp.toNat ∧ t.amp.toNat ≤ 0x3F7FFFE0

/-- R63: any NOTE_ON and NOTE_OFF commands from reset leave as many voices as there are NOTE_ONs whose note has had no
NOTE_OFF after them. -/
def Obligations.VoiceCountIsTheHeldNoteCount : Prop :=
  ∀ cs : List Instr, (∀ c ∈ cs, isNoteCommand c = true) →
    ∃ t, runCommands cs State.reset = .next t ∧ t.voices.length = heldNotes cs

/-- R18, R21, R26, R27: registers that no rule reads, or that are written before they are read, never reach the output:
states that differ only in them stay indistinguishable to the host. -/
def Obligations.UnreadRegistersNeverReachTheOutput : Prop :=
  ∀ s s' t : State, SameToHost s s' → step s = .next t →
    ∃ t', step s' = .next t' ∧ SameToHost t t'
end

