-- ==== Sys2Proof/Laws/Decode.lean ====
section
/-! SUPPORT. What the decoder reads (Decode.lean): the ranges of its fields, the fields of an assembled word, and one
inversion lemma for each command and for the verdict `IGNORED`. -/

namespace Sys2Proof.Laws

theorem field_lt (w : Word) (hi lo : Nat) : field w hi lo < 2 ^ (hi + 1 - lo) :=
  Nat.mod_lt _ (Nat.pos_of_ne_zero (by simp))

theorem opField_eq (w : Word) : opField w = w.toNat / 2 ^ 24 := by
  have := w.isLt
  simp only [opField, field]
  omega

/-- A word is its three fields (R45). -/
theorem toNat_eq_fields (w : Word) :
    w.toNat = opField w * 2 ^ 24 + aField w * 2 ^ 16 + bField w := by
  have := w.isLt
  simp only [opField, aField, bField, field]
  omega

theorem toNat_wordOfFields {op a b : Nat} (ho : op < 2 ^ 8) (ha : a < 2 ^ 8) (hb : b < 2 ^ 16) :
    (wordOfFields op a b).toNat = op * 2 ^ 24 + a * 2 ^ 16 + b := by
  simp only [wordOfFields, BitVec.toNat_ofNat]
  omega

/-- The fields of an assembled word. -/
theorem fields_wordOfFields {op a b : Nat} (ho : op < 2 ^ 8) (ha : a < 2 ^ 8) (hb : b < 2 ^ 16) :
    opField (wordOfFields op a b) = op ∧ aField (wordOfFields op a b) = a ∧
      bField (wordOfFields op a b) = b := by
  have := toNat_wordOfFields ho ha hb
  simp only [opField, aField, bField, field]
  omega

/-- The words that decode to a command, one case a command (R48). -/
theorem decode_ok_cases {w : Word} {i : Instr} (h : decode w = .ok i) :
    (w = 0 ∧ i = .nop) ∨
    (opField w = 1 ∧ field w 23 23 = 0 ∧ bField w = 0 ∧ i = .noteOn (field w 22 16)) ∨
    (opField w = 2 ∧ field w 23 23 = 0 ∧ bField w = 0 ∧ i = .noteOff (field w 22 16)) ∨
    (opField w = 3 ∧ field w 15 7 = 0 ∧ i = .setCtrl (field w 23 16) (field w 6 0)) ∨
    (opField w = 4 ∧ field w 23 16 = 0 ∧ i = .render (field w 15 0)) := by
  unfold decode at h
  split at h
  · split at h <;> simp_all
  · split at h <;> simp_all
  · split at h <;> simp_all
  · split at h <;> simp_all
  · split at h <;> simp_all
  · simp at h

/-- A decoded command's operands are in range (R49 to R51). -/
theorem decode_wellFormed {w : Word} {i : Instr} (h : decode w = .ok i) : i.WellFormed = true := by
  have h1 := field_lt w 22 16
  have h2 := field_lt w 23 16
  have h3 := field_lt w 6 0
  have h4 := field_lt w 15 0
  rcases decode_ok_cases h with ⟨-, rfl⟩ | ⟨-, -, -, rfl⟩ | ⟨-, -, -, rfl⟩ | ⟨-, -, rfl⟩ | ⟨-, -, rfl⟩ <;>
    simp <;> omega

/-- A word of an opcode above 4 is ignored as unassigned (R53). -/
theorem decode_unassigned {w : Word} (h : 5 ≤ opField w) :
    decode w = .error (.unassignedOpcode (opField w)) := by
  unfold decode
  split <;> first | omega | rfl

/-! ### The byte transport (R34) -/

theorem wordOfBytes_bytesOfWord (w : Word) :
    Machine.wordOfBytes (BitVec.ofNat 8 (field w 31 24)) (BitVec.ofNat 8 (field w 23 16))
      (BitVec.ofNat 8 (field w 15 8)) (BitVec.ofNat 8 (field w 7 0)) = w := by
  have := w.isLt
  apply BitVec.eq_of_toNat_eq
  simp only [Machine.wordOfBytes, field, BitVec.toNat_ofNat]
  omega

end Sys2Proof.Laws
end

