-- ==== Sys2Proof/Laws/Fp.lean ====
section
/-! SUPPORT. What the binary32 operations do (Machine/Float.lean, Machine/Flags.lean): the parts of an assembled value,
where a NaN comes from and where it goes, and the order facts of exact sizes and of rounding that range statements
rest on. -/

namespace Sys2Proof.Laws

open Sys2Proof.Fp

/-! ### Parts of a value -/

theorem mag_lt (a : F32) : mag a < 2 ^ 31 := Nat.mod_lt _ (by decide)

theorem toNat_eq (a : F32) : a.toNat = (if sign a then 2 ^ 31 else 0) + mag a := by
  have := a.isLt
  simp only [sign, mag, decide_eq_true_eq]
  split <;> omega

theorem toNat_ofMag (s : Bool) (m : Nat) (h : m < 2 ^ 31) :
    (ofMag s m).toNat = (if s then 2 ^ 31 else 0) + m := by
  cases s <;> (simp [ofMag, BitVec.toNat_ofNat]; omega)

@[simp] theorem mag_ofMag (s : Bool) (m : Nat) (h : m < 2 ^ 31) : mag (ofMag s m) = m := by
  have := toNat_ofMag s m h
  simp only [mag, this]
  split
  all_goals omega

@[simp] theorem sign_ofMag (s : Bool) (m : Nat) (h : m < 2 ^ 31) : sign (ofMag s m) = s := by
  have := toNat_ofMag s m h
  simp only [sign, this]
  cases s
  · simpa using h
  · simp

theorem eq_of_mag_sign {a b : F32} (hm : mag a = mag b) (hs : sign a = sign b) : a = b := by
  apply BitVec.eq_of_toNat_eq
  rw [toNat_eq a, toNat_eq b, hm, hs]

@[simp] theorem mag_neg (a : F32) : mag (neg a) = mag a := mag_ofMag _ _ (mag_lt a)

@[simp] theorem sign_neg (a : F32) : sign (neg a) = !sign a := sign_ofMag _ _ (mag_lt a)

@[simp] theorem neg_neg (a : F32) : neg (neg a) = a := eq_of_mag_sign (by simp) (by simp)

@[simp] theorem value_neg (a : F32) : value (neg a) = -value a := by
  simp only [value, mag_neg, sign_neg]
  cases sign a <;> simp

theorem infMag_eq : infMag = 2139095040 := rfl

theorem isNaN_iff (a : F32) : isNaN a = true ↔ 2139095040 < mag a := decide_eq_true_iff

theorem isInf_iff (a : F32) : isInf a = true ↔ mag a = 2139095040 := decide_eq_true_iff

theorem isFinite_iff_lt (a : F32) : isFinite a = true ↔ mag a < 2139095040 :=
  decide_eq_true_iff

theorem isZero_iff (a : F32) : isZero a = true ↔ mag a = 0 := decide_eq_true_iff

/-- A NaN is not finite and not an infinity, and so on: the three classes by magnitude. -/
theorem isFinite_iff (a : F32) : isFinite a = true ↔ isNaN a = false ∧ isInf a = false := by
  rw [isFinite_iff_lt, ← Bool.not_eq_true, ← Bool.not_eq_true, isNaN_iff, isInf_iff]
  omega

/-! ### NaN results -/

/-- The NaN made of a draw is a NaN (R103). -/
@[simp] theorem isNaN_nanOf (d : F32) : isNaN (nanOf d) = true := by
  have h : d.toNat % 2 ^ 23 < 2 ^ 23 := Nat.mod_lt _ (by decide)
  rw [isNaN_iff]
  simp only [nanOf, infMag_eq]
  split <;> rw [mag_ofMag _ _ (by omega)] <;> omega

/-- Every NaN is the NaN of some draw: itself. -/
theorem nanOf_eq_self {a : F32} (h : isNaN a = true) : nanOf a = a := by
  rw [isNaN_iff, mag] at h
  have hl := a.isLt
  apply BitVec.eq_of_toNat_eq
  simp only [nanOf, infMag_eq]
  rw [toNat_ofMag _ _ (by split <;> omega)]
  simp only [sign, decide_eq_true_eq]
  split <;> split <;> omega

@[simp] theorem isNaN_ofMag (s : Bool) (m : Nat) (h : m ≤ infMag) : isNaN (ofMag s m) = false := by
  rw [infMag_eq] at h
  rw [← Bool.not_eq_true, isNaN_iff, mag_ofMag _ _ (by omega)]
  omega

theorem roundMag_le (n d : Nat) : roundMag n d ≤ infMag := by
  simp only [roundMag]
  exact Nat.min_le_right _ _

/-- A NaN operand of a sum gives the draw's NaN. -/
theorem add_nan {d a b : F32} (h : isNaN a = true ∨ isNaN b = true) : add d a b = nanOf d := by
  have : (isNaN a || isNaN b) = true := by simpa using h
  simp [add, this]

@[simp] theorem isNaN_neg (a : F32) : isNaN (neg a) = isNaN a := by simp [isNaN]

/-- A NaN operand of a difference gives the draw's NaN. -/
theorem sub_nan {d a b : F32} (h : isNaN a = true ∨ isNaN b = true) : sub d a b = nanOf d := by
  rw [sub]
  exact add_nan (by simpa using h)

/-- A NaN operand of a product gives the draw's NaN. -/
theorem mul_nan {d a b : F32} (h : isNaN a = true ∨ isNaN b = true) : mul d a b = nanOf d := by
  have : (isNaN a || isNaN b) = true := by simpa using h
  simp [mul, this]

/-- A NaN operand of a quotient gives the draw's NaN. -/
theorem div_nan {d a b : F32} (h : isNaN a = true ∨ isNaN b = true) : div d a b = nanOf d := by
  have : (isNaN a || isNaN b) = true := by simpa using h
  simp [div, this]

@[simp] theorem isNaN_ofNat (n : Nat) : isNaN (ofNat n) = false := by
  rw [ofNat]
  exact isNaN_ofMag _ _ (roundMag_le _ _)

/-- A comparison with a NaN is false (R8). -/
theorem gt_nan {a b : F32} (h : isNaN a = true ∨ isNaN b = true) : gt a b = false := by
  rcases h with h | h <;> simp [gt, h]

/-! ### The operations on finite values -/

/-- The sum of finite values that is not exactly zero: rounded once, with the sum's sign. -/
theorem add_finite {d a b : F32} (ha : isFinite a = true) (hb : isFinite b = true)
    (hz : value a + value b ≠ 0) :
    add d a b = ofMag (decide (value a + value b < 0)) (roundMag (value a + value b).natAbs 1) := by
  obtain ⟨ha1, ha2⟩ := (isFinite_iff a).1 ha
  obtain ⟨hb1, hb2⟩ := (isFinite_iff b).1 hb
  simp [add, ha1, ha2, hb1, hb2, hz]

/-- The sum of finite values that is exactly zero: −0 if both are negative, else +0. -/
theorem add_cancel {d a b : F32} (ha : isFinite a = true) (hb : isFinite b = true)
    (hz : value a + value b = 0) : add d a b = ofMag (sign a && sign b) 0 := by
  obtain ⟨ha1, ha2⟩ := (isFinite_iff a).1 ha
  obtain ⟨hb1, hb2⟩ := (isFinite_iff b).1 hb
  simp [add, ha1, ha2, hb1, hb2, hz]

/-- The product of finite values: rounded once, negative if the signs differ. -/
theorem mul_finite {d a b : F32} (ha : isFinite a = true) (hb : isFinite b = true) :
    mul d a b = ofMag (sign a != sign b) (roundMag (units (mag a) * units (mag b)) (2 ^ 149)) := by
  obtain ⟨ha1, ha2⟩ := (isFinite_iff a).1 ha
  obtain ⟨hb1, hb2⟩ := (isFinite_iff b).1 hb
  simp [mul, ha1, ha2, hb1, hb2]

/-- The quotient of finite values with a divisor that is not zero: rounded once, negative if the signs differ. -/
theorem div_finite {d a b : F32} (ha : isFinite a = true) (hb : isFinite b = true)
    (hz : isZero b = false) :
    div d a b = ofMag (sign a != sign b) (roundMag (units (mag a) * 2 ^ 149) (units (mag b))) := by
  obtain ⟨ha1, ha2⟩ := (isFinite_iff a).1 ha
  obtain ⟨hb1, hb2⟩ := (isFinite_iff b).1 hb
  simp [div, ha1, ha2, hb1, hb2, hz]

/-! ### Exact sizes are ordered as the magnitude bits are -/

theorem units_subnormal {m : Nat} (h : m / 2 ^ 23 = 0) : units m = m := by
  simp only [units, if_pos h]

theorem units_normal {m : Nat} (h : ¬m / 2 ^ 23 = 0) :
    units m = (2 ^ 23 + m % 2 ^ 23) * 2 ^ (m / 2 ^ 23 - 1) := by
  simp only [units, if_neg h]

theorem units_succ_lt (m : Nat) : units m < units (m + 1) := by
  by_cases h0 : m / 2 ^ 23 = 0
  · rw [units_subnormal h0]
    by_cases h1 : (m + 1) / 2 ^ 23 = 0
    · rw [units_subnormal h1]
      omega
    · rw [units_normal h1, show (m + 1) / 2 ^ 23 - 1 = 0 by omega]
      omega
  · have hp : 0 < 2 ^ (m / 2 ^ 23 - 1) := Nat.pos_of_ne_zero (by simp)
    by_cases hc : (m + 1) % 2 ^ 23 = 0
    · have hd : (m + 1) / 2 ^ 23 = m / 2 ^ 23 + 1 := by omega
      have hm : m % 2 ^ 23 = 2 ^ 23 - 1 := by omega
      have he : m / 2 ^ 23 + 1 - 1 = (m / 2 ^ 23 - 1) + 1 := by omega
      rw [units_normal h0, units_normal (by omega), hd, hc, hm, he, pow_succ 2 (m / 2 ^ 23 - 1)]
      generalize 2 ^ (m / 2 ^ 23 - 1) = x at *
      omega
    · have hd : (m + 1) / 2 ^ 23 = m / 2 ^ 23 := by omega
      have hm : (m + 1) % 2 ^ 23 = m % 2 ^ 23 + 1 := by omega
      rw [units_normal h0, units_normal (by omega), hd, hm]
      exact Nat.mul_lt_mul_of_pos_right (by omega) hp

theorem units_strictMono : StrictMono units := strictMono_nat_of_lt_succ units_succ_lt

theorem units_le_units {m n : Nat} : units m ≤ units n ↔ m ≤ n := units_strictMono.le_iff_le

theorem units_lt_units {m n : Nat} : units m < units n ↔ m < n := units_strictMono.lt_iff_lt

@[simp] theorem units_zero : units 0 = 0 := by decide

@[simp] theorem units_eq_zero {m : Nat} : units m = 0 ↔ m = 0 :=
  ⟨fun h => units_strictMono.injective (h.trans units_zero.symm), fun h => by simp [h]⟩

/-! ### Rounding keeps the order, and keeps what is representable -/

/-- Rounding a quotient to a whole number, ties to even. -/
theorem nearest_mono {n q n' q' : Nat} (hq : 0 < q) (hq' : 0 < q') (h : n * q' ≤ n' * q) :
    n / q + (if q < 2 * (n % q) ∨ (2 * (n % q) = q ∧ n / q % 2 = 1) then 1 else 0) ≤
      n' / q' + (if q' < 2 * (n' % q') ∨ (2 * (n' % q') = q' ∧ n' / q' % 2 = 1) then 1 else 0) := by
  have e := Nat.div_add_mod n q
  have e' := Nat.div_add_mod n' q'
  have l' := Nat.mod_lt n' hq'
  generalize hm : n / q = m at *
  generalize hr : n % q = r at *
  generalize hm' : n' / q' = m' at *
  generalize hr' : n' % q' = r' at *
  have hle : m ≤ m' := by
    by_contra hlt
    have h1 : (m' + 1) * (q * q') ≤ m * (q * q') := Nat.mul_le_mul_right _ (by omega)
    have h2 : r' * q < q' * q := Nat.mul_lt_mul_of_pos_right l' hq
    rw [← e, ← e'] at h
    nlinarith
  rcases Nat.lt_or_eq_of_le hle with hlt | heq
  · split <;> split <;> omega
  · subst heq
    have hrr : r * q' ≤ r' * q := by
      rw [← e, ← e'] at h
      nlinarith
    have key : (q < 2 * r ∨ (2 * r = q ∧ m % 2 = 1)) →
        (q' < 2 * r' ∨ (2 * r' = q' ∧ m % 2 = 1)) := by
      rintro (h1 | ⟨h1, h2⟩)
      · left
        have h3 : q * q' < 2 * r * q' := Nat.mul_lt_mul_of_pos_right h1 hq'
        by_contra hc
        have h4 : 2 * r' * q ≤ q' * q := Nat.mul_le_mul_right _ (by omega)
        nlinarith
      · by_cases hc : 2 * r' = q'
        · exact .inr ⟨hc, h2⟩
        · left
          by_contra hn
          have h4 : (2 * r' + 1) * q ≤ q' * q := Nat.mul_le_mul_right _ (by omega)
          have h5 : 2 * r * q' = q * q' := by rw [h1]
          nlinarith
    by_cases hp : q < 2 * r ∨ (2 * r = q ∧ m % 2 = 1)
    · rw [if_pos hp, if_pos (key hp)]
    · rw [if_neg hp]
      omega

theorem log2_mono {m n : Nat} (h : m ≤ n) : Nat.log2 m ≤ Nat.log2 n := by
  simpa [Nat.log2_eq_log_two] using Nat.log_mono_right (b := 2) h

theorem lt_two_pow_quantum (q : Nat) : q < 2 ^ 24 * 2 ^ (Nat.log2 q - 23) := by
  have h := Nat.lt_log2_self (n := q)
  rw [← pow_add]
  exact h.trans_le (Nat.pow_le_pow_right (by decide) (by omega))

theorem two_pow_quantum_le {q : Nat} (h : 0 < Nat.log2 q - 23) :
    2 ^ 23 * 2 ^ (Nat.log2 q - 23) ≤ q := by
  have hq : q ≠ 0 := by
    rintro rfl
    simp at h
  rw [← pow_add, show 23 + (Nat.log2 q - 23) = Nat.log2 q by omega]
  exact Nat.log2_self_le hq

/-- A greater quantum gives greater magnitude bits. -/
theorem bits_le_of_quantum_lt {k k' m m' u u' : Nat} (hk : k < k') (hm : m < 2 ^ 24) (hu : u ≤ 1)
    (hm' : 2 ^ 23 ≤ m') : k * 2 ^ 23 + m + u ≤ k' * 2 ^ 23 + m' + u' := by
  have := Nat.mul_le_mul_right (2 ^ 23) (Nat.succ_le_of_lt hk)
  omega

/-- Rounding is monotonic: `n / d ≤ n' / d'` is kept. -/
theorem roundMag_mono {n d n' d' : Nat} (hd : 0 < d) (hd' : 0 < d') (h : n * d' ≤ n' * d) :
    roundMag n d ≤ roundMag n' d' := by
  have hqq : n / d ≤ n' / d' := by
    rw [Nat.le_div_iff_mul_le hd']
    have h1 : n / d * d ≤ n := Nat.div_mul_le_self n d
    have h2 : n / d * d * d' ≤ n' * d := (Nat.mul_le_mul_right d' h1).trans h
    have h3 : (n / d * d') * d ≤ n' * d := by nlinarith
    exact Nat.le_of_mul_le_mul_right h3 hd
  simp only [roundMag]
  apply min_le_min_right
  have hk : Nat.log2 (n / d) - 23 ≤ Nat.log2 (n' / d') - 23 := by
    have := log2_mono hqq
    omega
  have hp : ∀ k, 0 < d * 2 ^ k := fun k => Nat.mul_pos hd (Nat.pos_of_ne_zero (by simp))
  have hp' : ∀ k, 0 < d' * 2 ^ k := fun k => Nat.mul_pos hd' (Nat.pos_of_ne_zero (by simp))
  rcases Nat.lt_or_eq_of_le hk with hlt | heq
  · have h1 : n / (d * 2 ^ (Nat.log2 (n / d) - 23)) < 2 ^ 24 := by
      rw [← Nat.div_div_eq_div_mul]
      exact Nat.div_lt_of_lt_mul (by
        rw [Nat.mul_comm]
        exact lt_two_pow_quantum _)
    have h2 : 2 ^ 23 ≤ n' / (d' * 2 ^ (Nat.log2 (n' / d') - 23)) := by
      rw [← Nat.div_div_eq_div_mul, Nat.le_div_iff_mul_le (Nat.pos_of_ne_zero (by simp))]
      exact two_pow_quantum_le (by omega)
    exact bits_le_of_quantum_lt hlt h1 (by split <;> decide) h2
  · rw [← heq]
    generalize Nat.log2 (n / d) - 23 = k at *
    have hx : n * (d' * 2 ^ k) ≤ n' * (d * 2 ^ k) := by
      rw [← Nat.mul_assoc, ← Nat.mul_assoc]
      exact Nat.mul_le_mul_right _ h
    have := nearest_mono (hp k) (hp' k) hx
    omega

/-- A size that is that of a finite value is kept. -/
theorem roundMag_units {m d : Nat} (hd : 0 < d) (hm : m ≤ infMag) : roundMag (units m * d) d = m := by
  simp only [roundMag, Nat.mul_div_cancel _ hd]
  have key : ∀ k c, Nat.log2 (units m) - 23 = k → units m = c * 2 ^ k → k * 2 ^ 23 + c = m →
      min ((Nat.log2 (units m) - 23) * 2 ^ 23 + units m * d / (d * 2 ^ (Nat.log2 (units m) - 23)) +
        if d * 2 ^ (Nat.log2 (units m) - 23) < 2 * (units m * d % (d * 2 ^ (Nat.log2 (units m) - 23))) ∨
          2 * (units m * d % (d * 2 ^ (Nat.log2 (units m) - 23))) =
            d * 2 ^ (Nat.log2 (units m) - 23) ∧
            units m * d / (d * 2 ^ (Nat.log2 (units m) - 23)) % 2 = 1 then 1 else 0) infMag = m := by
    intro k c hk hu hkc
    have hpos : 0 < d * 2 ^ k := Nat.mul_pos hd (Nat.pos_of_ne_zero (by simp))
    have he : units m * d = c * (d * 2 ^ k) := by rw [hu]; ring
    rw [hk, he, Nat.mul_div_cancel _ hpos, Nat.mul_mod_left]
    rw [if_neg (by omega), Nat.add_zero, hkc, Nat.min_eq_left hm]
  by_cases h0 : m / 2 ^ 23 = 0
  · have hu : units m = m := units_subnormal h0
    refine key 0 m ?_ (by simp [hu]) (by simp)
    rw [hu]
    have : Nat.log2 m ≤ 22 := by
      have h1 := log2_mono (show m ≤ 2 ^ 23 - 1 by omega)
      have h2 : Nat.log2 (2 ^ 23 - 1) = 22 := by decide
      omega
    omega
  · have hu : units m = (2 ^ 23 + m % 2 ^ 23) * 2 ^ (m / 2 ^ 23 - 1) := units_normal h0
    refine key (m / 2 ^ 23 - 1) (2 ^ 23 + m % 2 ^ 23) ?_ hu (by omega)
    have hl : Nat.log2 (units m) = 23 + (m / 2 ^ 23 - 1) := by
      rw [Nat.log2_eq_log_two, hu]
      have hb : m % 2 ^ 23 < 2 ^ 23 := Nat.mod_lt _ (by decide)
      have hpow : 0 < 2 ^ (m / 2 ^ 23 - 1) := Nat.pos_of_ne_zero (by simp)
      apply Nat.log_eq_of_pow_le_of_lt_pow
      · rw [pow_add]
        exact Nat.mul_le_mul_right _ (by omega)
      · rw [show 23 + (m / 2 ^ 23 - 1) + 1 = 24 + (m / 2 ^ 23 - 1) by omega, pow_add]
        exact Nat.mul_lt_mul_of_pos_right (by omega) hpow
    omega

/-- The size of a rounded value is at most that of any representable bound on the exact one. -/
theorem roundMag_le_of_le {n d m : Nat} (hd : 0 < d) (hm : m ≤ infMag) (h : n ≤ units m * d) :
    roundMag n d ≤ m := by
  have := roundMag_mono (n' := units m * d) hd hd (Nat.mul_le_mul_right d h)
  rwa [roundMag_units hd hm] at this

/-- The size of a rounded value is at least that of any representable lower bound on the exact one. -/
theorem le_roundMag_of_le {n d m : Nat} (hd : 0 < d) (hm : m ≤ infMag) (h : units m * d ≤ n) :
    m ≤ roundMag n d := by
  have := roundMag_mono (n := units m * d) hd hd (Nat.mul_le_mul_right d h)
  rwa [roundMag_units hd hm] at this

end Sys2Proof.Laws
end

