-- ==== Sys2Proof/Laws/PerInstr.lean ====
section
/-! SUPPORT. A statement about every command as syntax, one lemma a constructor (LAWS.json). -/

/-- The word of a well-formed command holds its opcode in bits 31..24 (R45, R47). -/
def Sys2Proof.Laws.OpcodeByte.Statement (i : Sys2Proof.Instr) : Prop :=
  i.WellFormed = true → Sys2Proof.opField (Sys2Proof.encode i) = i.opcode

theorem Sys2Proof.Laws.OpcodeByte.nop : Statement .nop := fun _ =>
  (fields_wordOfFields (by decide) (by decide) (by decide)).1

theorem Sys2Proof.Laws.OpcodeByte.noteOn (note : Nat) : Statement (.noteOn note) := fun h => by
  have : note < 128 := by simpa using h
  exact (fields_wordOfFields (by decide) (by omega) (by decide)).1

theorem Sys2Proof.Laws.OpcodeByte.noteOff (note : Nat) : Statement (.noteOff note) := fun h => by
  have : note < 128 := by simpa using h
  exact (fields_wordOfFields (by decide) (by omega) (by decide)).1

theorem Sys2Proof.Laws.OpcodeByte.setCtrl (index value : Nat) : Statement (.setCtrl index value) :=
  fun h => by
    have : index < 256 ∧ value < 128 := by simpa using h
    exact (fields_wordOfFields (by decide) (by omega) (by omega)).1

theorem Sys2Proof.Laws.OpcodeByte.render (nframes : Nat) : Statement (.render nframes) := fun h => by
  have : nframes < 65536 := by simpa using h
  exact (fields_wordOfFields (by decide) (by decide) (by omega)).1
end

