-- ==== Sys2Proof/Laws/State.lean ====
section
/-! SUPPORT. One lemma per field per named write of State (Machine/Ops.lean), each true by definition, and the same for
the writes of the filter registers (Machine/Filter.lean), so that no later proof unfolds a record update. -/

namespace Sys2Proof.Laws

open Sys2Proof.Machine

variable (s : State)

/-! ### `setAmp` -/

@[simp] theorem setAmp_amp (v : F32) : (s.setAmp v).amp = v := rfl
@[simp] theorem setAmp_gate (v : F32) : (s.setAmp v).gate = s.gate := rfl
@[simp] theorem setAmp_ctrl1 (v : F32) : (s.setAmp v).ctrl1 = s.ctrl1 := rfl
@[simp] theorem setAmp_ctrl2 (v : F32) : (s.setAmp v).ctrl2 = s.ctrl2 := rfl
@[simp] theorem setAmp_ctrl3 (v : F32) : (s.setAmp v).ctrl3 = s.ctrl3 := rfl
@[simp] theorem setAmp_ctrl4 (v : F32) : (s.setAmp v).ctrl4 = s.ctrl4 := rfl
@[simp] theorem setAmp_voices (v : F32) : (s.setAmp v).voices = s.voices := rfl
@[simp] theorem setAmp_lfs (v : F32) : (s.setAmp v).lfs = s.lfs := rfl
@[simp] theorem setAmp_t (v : F32) : (s.setAmp v).t = s.t := rfl
@[simp] theorem setAmp_filter (v : F32) : (s.setAmp v).filter = s.filter := rfl
@[simp] theorem setAmp_eventQueue (v : F32) : (s.setAmp v).eventQueue = s.eventQueue := rfl
@[simp] theorem setAmp_renderQueue (v : F32) : (s.setAmp v).renderQueue = s.renderQueue := rfl
@[simp] theorem setAmp_output (v : F32) : (s.setAmp v).output = s.output := rfl
@[simp] theorem setAmp_draws (v : F32) : (s.setAmp v).draws = s.draws := rfl
@[simp] theorem setAmp_turns (v : F32) : (s.setAmp v).turns = s.turns := rfl

/-! ### `setGate` -/

@[simp] theorem setGate_amp (v : F32) : (s.setGate v).amp = s.amp := rfl
@[simp] theorem setGate_gate (v : F32) : (s.setGate v).gate = v := rfl
@[simp] theorem setGate_ctrl1 (v : F32) : (s.setGate v).ctrl1 = s.ctrl1 := rfl
@[simp] theorem setGate_ctrl2 (v : F32) : (s.setGate v).ctrl2 = s.ctrl2 := rfl
@[simp] theorem setGate_ctrl3 (v : F32) : (s.setGate v).ctrl3 = s.ctrl3 := rfl
@[simp] theorem setGate_ctrl4 (v : F32) : (s.setGate v).ctrl4 = s.ctrl4 := rfl
@[simp] theorem setGate_voices (v : F32) : (s.setGate v).voices = s.voices := rfl
@[simp] theorem setGate_lfs (v : F32) : (s.setGate v).lfs = s.lfs := rfl
@[simp] theorem setGate_t (v : F32) : (s.setGate v).t = s.t := rfl
@[simp] theorem setGate_filter (v : F32) : (s.setGate v).filter = s.filter := rfl
@[simp] theorem setGate_eventQueue (v : F32) : (s.setGate v).eventQueue = s.eventQueue := rfl
@[simp] theorem setGate_renderQueue (v : F32) : (s.setGate v).renderQueue = s.renderQueue := rfl
@[simp] theorem setGate_output (v : F32) : (s.setGate v).output = s.output := rfl
@[simp] theorem setGate_draws (v : F32) : (s.setGate v).draws = s.draws := rfl
@[simp] theorem setGate_turns (v : F32) : (s.setGate v).turns = s.turns := rfl

/-! ### `setVoices` -/

@[simp] theorem setVoices_amp (v : List Voice) : (s.setVoices v).amp = s.amp := rfl
@[simp] theorem setVoices_gate (v : List Voice) : (s.setVoices v).gate = s.gate := rfl
@[simp] theorem setVoices_ctrl1 (v : List Voice) : (s.setVoices v).ctrl1 = s.ctrl1 := rfl
@[simp] theorem setVoices_ctrl2 (v : List Voice) : (s.setVoices v).ctrl2 = s.ctrl2 := rfl
@[simp] theorem setVoices_ctrl3 (v : List Voice) : (s.setVoices v).ctrl3 = s.ctrl3 := rfl
@[simp] theorem setVoices_ctrl4 (v : List Voice) : (s.setVoices v).ctrl4 = s.ctrl4 := rfl
@[simp] theorem setVoices_voices (v : List Voice) : (s.setVoices v).voices = v := rfl
@[simp] theorem setVoices_lfs (v : List Voice) : (s.setVoices v).lfs = s.lfs := rfl
@[simp] theorem setVoices_t (v : List Voice) : (s.setVoices v).t = s.t := rfl
@[simp] theorem setVoices_filter (v : List Voice) : (s.setVoices v).filter = s.filter := rfl
@[simp] theorem setVoices_eventQueue (v : List Voice) : (s.setVoices v).eventQueue = s.eventQueue := rfl
@[simp] theorem setVoices_renderQueue (v : List Voice) : (s.setVoices v).renderQueue = s.renderQueue := rfl
@[simp] theorem setVoices_output (v : List Voice) : (s.setVoices v).output = s.output := rfl
@[simp] theorem setVoices_draws (v : List Voice) : (s.setVoices v).draws = s.draws := rfl
@[simp] theorem setVoices_turns (v : List Voice) : (s.setVoices v).turns = s.turns := rfl

/-! ### `setLfs` -/

@[simp] theorem setLfs_amp (v : F32) : (s.setLfs v).amp = s.amp := rfl
@[simp] theorem setLfs_gate (v : F32) : (s.setLfs v).gate = s.gate := rfl
@[simp] theorem setLfs_ctrl1 (v : F32) : (s.setLfs v).ctrl1 = s.ctrl1 := rfl
@[simp] theorem setLfs_ctrl2 (v : F32) : (s.setLfs v).ctrl2 = s.ctrl2 := rfl
@[simp] theorem setLfs_ctrl3 (v : F32) : (s.setLfs v).ctrl3 = s.ctrl3 := rfl
@[simp] theorem setLfs_ctrl4 (v : F32) : (s.setLfs v).ctrl4 = s.ctrl4 := rfl
@[simp] theorem setLfs_voices (v : F32) : (s.setLfs v).voices = s.voices := rfl
@[simp] theorem setLfs_lfs (v : F32) : (s.setLfs v).lfs = v := rfl
@[simp] theorem setLfs_t (v : F32) : (s.setLfs v).t = s.t := rfl
@[simp] theorem setLfs_filter (v : F32) : (s.setLfs v).filter = s.filter := rfl
@[simp] theorem setLfs_eventQueue (v : F32) : (s.setLfs v).eventQueue = s.eventQueue := rfl
@[simp] theorem setLfs_renderQueue (v : F32) : (s.setLfs v).renderQueue = s.renderQueue := rfl
@[simp] theorem setLfs_output (v : F32) : (s.setLfs v).output = s.output := rfl
@[simp] theorem setLfs_draws (v : F32) : (s.setLfs v).draws = s.draws := rfl
@[simp] theorem setLfs_turns (v : F32) : (s.setLfs v).turns = s.turns := rfl

/-! ### `setT` -/

@[simp] theorem setT_amp (v : F32) : (s.setT v).amp = s.amp := rfl
@[simp] theorem setT_gate (v : F32) : (s.setT v).gate = s.gate := rfl
@[simp] theorem setT_ctrl1 (v : F32) : (s.setT v).ctrl1 = s.ctrl1 := rfl
@[simp] theorem setT_ctrl2 (v : F32) : (s.setT v).ctrl2 = s.ctrl2 := rfl
@[simp] theorem setT_ctrl3 (v : F32) : (s.setT v).ctrl3 = s.ctrl3 := rfl
@[simp] theorem setT_ctrl4 (v : F32) : (s.setT v).ctrl4 = s.ctrl4 := rfl
@[simp] theorem setT_voices (v : F32) : (s.setT v).voices = s.voices := rfl
@[simp] theorem setT_lfs (v : F32) : (s.setT v).lfs = s.lfs := rfl
@[simp] theorem setT_t (v : F32) : (s.setT v).t = v := rfl
@[simp] theorem setT_filter (v : F32) : (s.setT v).filter = s.filter := rfl
@[simp] theorem setT_eventQueue (v : F32) : (s.setT v).eventQueue = s.eventQueue := rfl
@[simp] theorem setT_renderQueue (v : F32) : (s.setT v).renderQueue = s.renderQueue := rfl
@[simp] theorem setT_output (v : F32) : (s.setT v).output = s.output := rfl
@[simp] theorem setT_draws (v : F32) : (s.setT v).draws = s.draws := rfl
@[simp] theorem setT_turns (v : F32) : (s.setT v).turns = s.turns := rfl

/-! ### `setFilter` -/

@[simp] theorem setFilter_amp (v : FilterState) : (s.setFilter v).amp = s.amp := rfl
@[simp] theorem setFilter_gate (v : FilterState) : (s.setFilter v).gate = s.gate := rfl
@[simp] theorem setFilter_ctrl1 (v : FilterState) : (s.setFilter v).ctrl1 = s.ctrl1 := rfl
@[simp] theorem setFilter_ctrl2 (v : FilterState) : (s.setFilter v).ctrl2 = s.ctrl2 := rfl
@[simp] theorem setFilter_ctrl3 (v : FilterState) : (s.setFilter v).ctrl3 = s.ctrl3 := rfl
@[simp] theorem setFilter_ctrl4 (v : FilterState) : (s.setFilter v).ctrl4 = s.ctrl4 := rfl
@[simp] theorem setFilter_voices (v : FilterState) : (s.setFilter v).voices = s.voices := rfl
@[simp] theorem setFilter_lfs (v : FilterState) : (s.setFilter v).lfs = s.lfs := rfl
@[simp] theorem setFilter_t (v : FilterState) : (s.setFilter v).t = s.t := rfl
@[simp] theorem setFilter_filter (v : FilterState) : (s.setFilter v).filter = v := rfl
@[simp] theorem setFilter_eventQueue (v : FilterState) : (s.setFilter v).eventQueue = s.eventQueue := rfl
@[simp] theorem setFilter_renderQueue (v : FilterState) : (s.setFilter v).renderQueue = s.renderQueue := rfl
@[simp] theorem setFilter_output (v : FilterState) : (s.setFilter v).output = s.output := rfl
@[simp] theorem setFilter_draws (v : FilterState) : (s.setFilter v).draws = s.draws := rfl
@[simp] theorem setFilter_turns (v : FilterState) : (s.setFilter v).turns = s.turns := rfl

/-! ### `handOver` -/

@[simp] theorem handOver_amp (b : List F32) : (s.handOver b).amp = s.amp := rfl
@[simp] theorem handOver_gate (b : List F32) : (s.handOver b).gate = s.gate := rfl
@[simp] theorem handOver_ctrl1 (b : List F32) : (s.handOver b).ctrl1 = s.ctrl1 := rfl
@[simp] theorem handOver_ctrl2 (b : List F32) : (s.handOver b).ctrl2 = s.ctrl2 := rfl
@[simp] theorem handOver_ctrl3 (b : List F32) : (s.handOver b).ctrl3 = s.ctrl3 := rfl
@[simp] theorem handOver_ctrl4 (b : List F32) : (s.handOver b).ctrl4 = s.ctrl4 := rfl
@[simp] theorem handOver_voices (b : List F32) : (s.handOver b).voices = s.voices := rfl
@[simp] theorem handOver_lfs (b : List F32) : (s.handOver b).lfs = s.lfs := rfl
@[simp] theorem handOver_t (b : List F32) : (s.handOver b).t = s.t := rfl
@[simp] theorem handOver_filter (b : List F32) : (s.handOver b).filter = s.filter := rfl
@[simp] theorem handOver_eventQueue (b : List F32) : (s.handOver b).eventQueue = s.eventQueue := rfl
@[simp] theorem handOver_renderQueue (b : List F32) : (s.handOver b).renderQueue = s.renderQueue := rfl
@[simp] theorem handOver_output (b : List F32) : (s.handOver b).output = s.output ++ [b] := rfl
@[simp] theorem handOver_draws (b : List F32) : (s.handOver b).draws = s.draws := rfl
@[simp] theorem handOver_turns (b : List F32) : (s.handOver b).turns = s.turns := rfl

/-! ### `useDraws` -/

@[simp] theorem useDraws_amp (n : Nat) : (s.useDraws n).amp = s.amp := rfl
@[simp] theorem useDraws_gate (n : Nat) : (s.useDraws n).gate = s.gate := rfl
@[simp] theorem useDraws_ctrl1 (n : Nat) : (s.useDraws n).ctrl1 = s.ctrl1 := rfl
@[simp] theorem useDraws_ctrl2 (n : Nat) : (s.useDraws n).ctrl2 = s.ctrl2 := rfl
@[simp] theorem useDraws_ctrl3 (n : Nat) : (s.useDraws n).ctrl3 = s.ctrl3 := rfl
@[simp] theorem useDraws_ctrl4 (n : Nat) : (s.useDraws n).ctrl4 = s.ctrl4 := rfl
@[simp] theorem useDraws_voices (n : Nat) : (s.useDraws n).voices = s.voices := rfl
@[simp] theorem useDraws_lfs (n : Nat) : (s.useDraws n).lfs = s.lfs := rfl
@[simp] theorem useDraws_t (n : Nat) : (s.useDraws n).t = s.t := rfl
@[simp] theorem useDraws_filter (n : Nat) : (s.useDraws n).filter = s.filter := rfl
@[simp] theorem useDraws_eventQueue (n : Nat) : (s.useDraws n).eventQueue = s.eventQueue := rfl
@[simp] theorem useDraws_renderQueue (n : Nat) : (s.useDraws n).renderQueue = s.renderQueue := rfl
@[simp] theorem useDraws_output (n : Nat) : (s.useDraws n).output = s.output := rfl
@[simp] theorem useDraws_draws (n : Nat) : (s.useDraws n).draws = s.draws + n := rfl
@[simp] theorem useDraws_turns (n : Nat) : (s.useDraws n).turns = s.turns := rfl

/-! ### `setQueues` -/

@[simp] theorem setQueues_amp (es rs : List Word) (k : Nat) : (s.setQueues es rs k).amp = s.amp := rfl
@[simp] theorem setQueues_gate (es rs : List Word) (k : Nat) : (s.setQueues es rs k).gate = s.gate := rfl
@[simp] theorem setQueues_ctrl1 (es rs : List Word) (k : Nat) : (s.setQueues es rs k).ctrl1 = s.ctrl1 := rfl
@[simp] theorem setQueues_ctrl2 (es rs : List Word) (k : Nat) : (s.setQueues es rs k).ctrl2 = s.ctrl2 := rfl
@[simp] theorem setQueues_ctrl3 (es rs : List Word) (k : Nat) : (s.setQueues es rs k).ctrl3 = s.ctrl3 := rfl
@[simp] theorem setQueues_ctrl4 (es rs : List Word) (k : Nat) : (s.setQueues es rs k).ctrl4 = s.ctrl4 := rfl
@[simp] theorem setQueues_voices (es rs : List Word) (k : Nat) : (s.setQueues es rs k).voices = s.voices := rfl
@[simp] theorem setQueues_lfs (es rs : List Word) (k : Nat) : (s.setQueues es rs k).lfs = s.lfs := rfl
@[simp] theorem setQueues_t (es rs : List Word) (k : Nat) : (s.setQueues es rs k).t = s.t := rfl
@[simp] theorem setQueues_filter (es rs : List Word) (k : Nat) : (s.setQueues es rs k).filter = s.filter := rfl
@[simp] theorem setQueues_eventQueue (es rs : List Word) (k : Nat) : (s.setQueues es rs k).eventQueue = es := rfl
@[simp] theorem setQueues_renderQueue (es rs : List Word) (k : Nat) : (s.setQueues es rs k).renderQueue = rs := rfl
@[simp] theorem setQueues_output (es rs : List Word) (k : Nat) : (s.setQueues es rs k).output = s.output := rfl
@[simp] theorem setQueues_draws (es rs : List Word) (k : Nat) : (s.setQueues es rs k).draws = s.draws := rfl
@[simp] theorem setQueues_turns (es rs : List Word) (k : Nat) : (s.setQueues es rs k).turns = k := rfl

/-! ### `setCtrl`: an index selects one register, or none -/

@[simp] theorem setCtrl_1_ctrl1 (v : F32) : (s.setCtrl 1 v).ctrl1 = v := rfl
@[simp] theorem setCtrl_1_ctrl2 (v : F32) : (s.setCtrl 1 v).ctrl2 = s.ctrl2 := rfl
@[simp] theorem setCtrl_1_ctrl3 (v : F32) : (s.setCtrl 1 v).ctrl3 = s.ctrl3 := rfl
@[simp] theorem setCtrl_1_ctrl4 (v : F32) : (s.setCtrl 1 v).ctrl4 = s.ctrl4 := rfl
@[simp] theorem setCtrl_2_ctrl1 (v : F32) : (s.setCtrl 2 v).ctrl1 = s.ctrl1 := rfl
@[simp] theorem setCtrl_2_ctrl2 (v : F32) : (s.setCtrl 2 v).ctrl2 = v := rfl
@[simp] theorem setCtrl_2_ctrl3 (v : F32) : (s.setCtrl 2 v).ctrl3 = s.ctrl3 := rfl
@[simp] theorem setCtrl_2_ctrl4 (v : F32) : (s.setCtrl 2 v).ctrl4 = s.ctrl4 := rfl
@[simp] theorem setCtrl_3_ctrl1 (v : F32) : (s.setCtrl 3 v).ctrl1 = s.ctrl1 := rfl
@[simp] theorem setCtrl_3_ctrl2 (v : F32) : (s.setCtrl 3 v).ctrl2 = s.ctrl2 := rfl
@[simp] theorem setCtrl_3_ctrl3 (v : F32) : (s.setCtrl 3 v).ctrl3 = v := rfl
@[simp] theorem setCtrl_3_ctrl4 (v : F32) : (s.setCtrl 3 v).ctrl4 = s.ctrl4 := rfl
@[simp] theorem setCtrl_4_ctrl1 (v : F32) : (s.setCtrl 4 v).ctrl1 = s.ctrl1 := rfl
@[simp] theorem setCtrl_4_ctrl2 (v : F32) : (s.setCtrl 4 v).ctrl2 = s.ctrl2 := rfl
@[simp] theorem setCtrl_4_ctrl3 (v : F32) : (s.setCtrl 4 v).ctrl3 = s.ctrl3 := rfl
@[simp] theorem setCtrl_4_ctrl4 (v : F32) : (s.setCtrl 4 v).ctrl4 = v := rfl

/-- An index that selects no register changes nothing (R37, R61). -/
theorem setCtrl_none {index : Nat} (h : ¬(1 ≤ index ∧ index ≤ 4)) (v : F32) : s.setCtrl index v = s := by
  unfold State.setCtrl
  split <;> first | rfl | (exfalso; omega)

/-- Everything `setCtrl` can do: one of four writes, or nothing. -/
theorem setCtrl_cases (index : Nat) (v : F32) :
    s.setCtrl index v = { s with ctrl1 := v } ∨ s.setCtrl index v = { s with ctrl2 := v } ∨
      s.setCtrl index v = { s with ctrl3 := v } ∨ s.setCtrl index v = { s with ctrl4 := v } ∨
      s.setCtrl index v = s := by
  unfold State.setCtrl
  split <;> simp

@[simp] theorem setCtrl_amp (index : Nat) (v : F32) : (s.setCtrl index v).amp = s.amp := by
  unfold State.setCtrl
  split <;> rfl
@[simp] theorem setCtrl_gate (index : Nat) (v : F32) : (s.setCtrl index v).gate = s.gate := by
  unfold State.setCtrl
  split <;> rfl
@[simp] theorem setCtrl_voices (index : Nat) (v : F32) : (s.setCtrl index v).voices = s.voices := by
  unfold State.setCtrl
  split <;> rfl
@[simp] theorem setCtrl_lfs (index : Nat) (v : F32) : (s.setCtrl index v).lfs = s.lfs := by
  unfold State.setCtrl
  split <;> rfl
@[simp] theorem setCtrl_t (index : Nat) (v : F32) : (s.setCtrl index v).t = s.t := by
  unfold State.setCtrl
  split <;> rfl
@[simp] theorem setCtrl_filter (index : Nat) (v : F32) : (s.setCtrl index v).filter = s.filter := by
  unfold State.setCtrl
  split <;> rfl
@[simp] theorem setCtrl_eventQueue (index : Nat) (v : F32) : (s.setCtrl index v).eventQueue = s.eventQueue := by
  unfold State.setCtrl
  split <;> rfl
@[simp] theorem setCtrl_renderQueue (index : Nat) (v : F32) : (s.setCtrl index v).renderQueue = s.renderQueue := by
  unfold State.setCtrl
  split <;> rfl
@[simp] theorem setCtrl_output (index : Nat) (v : F32) : (s.setCtrl index v).output = s.output := by
  unfold State.setCtrl
  split <;> rfl
@[simp] theorem setCtrl_draws (index : Nat) (v : F32) : (s.setCtrl index v).draws = s.draws := by
  unfold State.setCtrl
  split <;> rfl
@[simp] theorem setCtrl_turns (index : Nat) (v : F32) : (s.setCtrl index v).turns = s.turns := by
  unfold State.setCtrl
  split <;> rfl

/-! ### The registers `COEF` does not write, and `CUTOFF_PCT` and `Q` (R82) -/

variable (p : Params) (nan : Draws) (f : FilterState)

@[simp] theorem coef_resPct (c : F32) : (coef p nan c f).resPct = f.resPct := rfl
@[simp] theorem coef_x1 (c : F32) : (coef p nan c f).x1 = f.x1 := rfl
@[simp] theorem coef_x2 (c : F32) : (coef p nan c f).x2 = f.x2 := rfl
@[simp] theorem coef_y0 (c : F32) : (coef p nan c f).y0 = f.y0 := rfl
@[simp] theorem coef_y1 (c : F32) : (coef p nan c f).y1 = f.y1 := rfl
@[simp] theorem coef_y2 (c : F32) : (coef p nan c f).y2 = f.y2 := rfl
@[simp] theorem coef_cutoffPct (c : F32) : (coef p nan c f).cutoffPct = c := rfl
@[simp] theorem coef_q (c : F32) : (coef p nan c f).q = kQ := rfl

/-! ### The registers `BIQUAD` does not write, and its four moves (R85) -/

@[simp] theorem biquad_cutoffPct (x : F32) : (biquad nan x f).cutoffPct = f.cutoffPct := rfl
@[simp] theorem biquad_resPct (x : F32) : (biquad nan x f).resPct = f.resPct := rfl
@[simp] theorem biquad_q (x : F32) : (biquad nan x f).q = f.q := rfl
@[simp] theorem biquad_a0 (x : F32) : (biquad nan x f).a0 = f.a0 := rfl
@[simp] theorem biquad_a1 (x : F32) : (biquad nan x f).a1 = f.a1 := rfl
@[simp] theorem biquad_a2 (x : F32) : (biquad nan x f).a2 = f.a2 := rfl
@[simp] theorem biquad_b0b2 (x : F32) : (biquad nan x f).b0b2 = f.b0b2 := rfl
@[simp] theorem biquad_b1 (x : F32) : (biquad nan x f).b1 = f.b1 := rfl
@[simp] theorem biquad_y0 (x : F32) : (biquad nan x f).y0 = Fp.div (nan 9) (biquadSum nan x f) f.a0 := by
  simp only [biquad]
@[simp] theorem biquad_y1 (x : F32) : (biquad nan x f).y1 = (biquad nan x f).y0 := by
  simp only [biquad]
@[simp] theorem biquad_y2 (x : F32) : (biquad nan x f).y2 = f.y1 := rfl
@[simp] theorem biquad_x1 (x : F32) : (biquad nan x f).x1 = x := rfl
@[simp] theorem biquad_x2 (x : F32) : (biquad nan x f).x2 = f.x1 := rfl

end Sys2Proof.Laws
end

