-- ==== Sys2Proof/Laws/Render.lean ====
section
/-! SUPPORT. What a sample step and a RENDER do, register by register (Machine/Render.lean). -/

namespace Sys2Proof.Laws

open Sys2Proof.Machine Sys2Proof.Safety

variable (p : Params) (s : State)

/-! ### The sample step: the registers it keeps (R28) and those it writes (R91) -/

@[simp] theorem sampleStep_gate : (sampleStep p s).gate = s.gate := by simp [sampleStep]
@[simp] theorem sampleStep_ctrl1 : (sampleStep p s).ctrl1 = s.ctrl1 := by simp [sampleStep]
@[simp] theorem sampleStep_ctrl2 : (sampleStep p s).ctrl2 = s.ctrl2 := by simp [sampleStep]
@[simp] theorem sampleStep_ctrl3 : (sampleStep p s).ctrl3 = s.ctrl3 := by simp [sampleStep]
@[simp] theorem sampleStep_ctrl4 : (sampleStep p s).ctrl4 = s.ctrl4 := by simp [sampleStep]
@[simp] theorem sampleStep_voices : (sampleStep p s).voices = s.voices := by simp [sampleStep]
@[simp] theorem sampleStep_eventQueue : (sampleStep p s).eventQueue = s.eventQueue := by simp [sampleStep]
@[simp] theorem sampleStep_renderQueue : (sampleStep p s).renderQueue = s.renderQueue := by simp [sampleStep]
@[simp] theorem sampleStep_output : (sampleStep p s).output = s.output := by simp [sampleStep]
@[simp] theorem sampleStep_turns : (sampleStep p s).turns = s.turns := by simp [sampleStep]
@[simp] theorem sampleStep_filter : (sampleStep p s).filter = sampleFilter p s := by simp [sampleStep]
@[simp] theorem sampleStep_lfs : (sampleStep p s).lfs = (sampleFilter p s).y0 := by simp [sampleStep]

@[simp] theorem sampleStep_draws :
    (sampleStep p s).draws = s.draws + sampleOps s.voices.length := by simp [sampleStep]

/-- `AMP` is advanced by one `ENV_STEP` from its value and `GATE`'s (R66). -/
theorem sampleStep_amp : ∃ nan, (sampleStep p s).amp = envStep nan s.amp s.gate := by
  simp only [sampleStep, useDraws_amp, setT_amp, setAmp_amp]
  exact ⟨_, rfl⟩

/-- `T` is advanced by `DT` (R92). -/
theorem sampleStep_t : ∃ d, (sampleStep p s).t = Fp.add d s.t p.dt := by
  simp only [sampleStep, useDraws_t, setT_t]
  exact ⟨_, rfl⟩

@[simp] theorem sampleFilter_resPct : (sampleFilter p s).resPct = s.filter.resPct := by
  simp [sampleFilter]

@[simp] theorem sampleFilter_q : (sampleFilter p s).q = kQ := by simp [sampleFilter]

@[simp] theorem sampleFilter_cutoffPct : (sampleFilter p s).cutoffPct = sampleCutoff p s := by
  simp [sampleFilter]

@[simp] theorem sampleFilter_x1 : (sampleFilter p s).x1 = sampleSignal p s := by simp [sampleFilter]
@[simp] theorem sampleFilter_x2 : (sampleFilter p s).x2 = s.filter.x1 := by simp [sampleFilter]
@[simp] theorem sampleFilter_y2 : (sampleFilter p s).y2 = s.filter.y1 := by simp [sampleFilter]

theorem sampleFilter_y1 : (sampleFilter p s).y1 = (sampleFilter p s).y0 := by
  simp only [sampleFilter, biquad_y1]

/-! ### RENDER as repeated sample steps (R87) -/

@[simp] theorem renderFrames_zero : renderFrames p 0 s = (s, []) := rfl

theorem renderFrames_succ (n : Nat) :
    renderFrames p (n + 1) s =
      ((renderFrames p n (sampleStep p s)).1,
        frame p (sampleStep p s).filter.y0 ++ (renderFrames p n (sampleStep p s)).2) := rfl

theorem renderFrames_state (n : Nat) : (renderFrames p n s).1 = sampleSteps p n s := by
  induction n generalizing s with
  | zero => rfl
  | succ n ih =>
    rw [renderFrames_succ]
    exact ih _

@[simp] theorem frame_length (y : F32) : (frame p y).length = p.channels := by simp [frame]

theorem renderFrames_length (n : Nat) : (renderFrames p n s).2.length = p.channels * n := by
  induction n generalizing s with
  | zero => rfl
  | succ n ih =>
    rw [renderFrames_succ]
    simp [ih, Nat.mul_succ, Nat.add_comm]

/-- A predicate that every sample step keeps is kept by any number of them. -/
theorem sampleSteps_keep {P : State → Prop} (h : ∀ s, P s → P (sampleStep p s)) (n : Nat)
    {s : State} (hs : P s) : P (sampleSteps p n s) := by
  induction n generalizing s with
  | zero => exact hs
  | succ n ih => exact ih (h s hs)

/-- A register that no sample step changes is changed by no number of them. -/
theorem sampleSteps_field {α : Type} {g : State → α} (h : ∀ s, g (sampleStep p s) = g s) (n : Nat)
    (s : State) : g (sampleSteps p n s) = g s := by
  induction n generalizing s with
  | zero => rfl
  | succ n ih => exact (ih _).trans (h s)

theorem sampleSteps_add (a b : Nat) (s : State) :
    sampleSteps p (a + b) s = sampleSteps p b (sampleSteps p a s) := by
  induction a generalizing s with
  | zero => simp [sampleSteps]
  | succ a ih =>
    rw [Nat.succ_add]
    exact ih _

/-- RENDER is its sample steps and the hand-over of its block (R87). -/
theorem render_eq (n : Nat) :
    render p n s = (sampleSteps p n s).handOver (renderFrames p n s).2 := by
  rw [render, renderFrames_state]

end Sys2Proof.Laws
end

