-- ==== Sys2Proof/Laws/Rounding.lean ====
section
/-! SUPPORT. Rounding gives the nearest size, ties to even (spec 00_scope.md R8): `roundMag` lies between the middles of the
gaps around it, so no other representable size is nearer. -/

namespace Sys2Proof.Laws

open Sys2Proof.Fp Sys2Proof.Safety

/-- The size of the magnitude bits `k * 2^23 + c`: the significand `c` with the quantum `2^k`. -/
theorem units_significand {k c : Nat} (hc : c ≤ 2 ^ 24) (hk : k = 0 ∨ 2 ^ 23 ≤ c) :
    units (k * 2 ^ 23 + c) = c * 2 ^ k := by
  rcases Nat.lt_or_ge (k * 2 ^ 23 + c) (2 ^ 23) with h | h
  · have : k = 0 := by omega
    subst this
    rw [units_subnormal (by omega)]
    simp
  · rcases Nat.lt_or_eq_of_le hc with h1 | h1
    · have h23 : 2 ^ 23 ≤ c := by omega
      rw [units_normal (by omega), show (k * 2 ^ 23 + c) / 2 ^ 23 - 1 = k by omega,
        show 2 ^ 23 + (k * 2 ^ 23 + c) % 2 ^ 23 = c by omega]
    · subst h1
      rw [units_normal (by omega), show (k * 2 ^ 23 + 2 ^ 24) / 2 ^ 23 - 1 = k + 1 by omega,
        show 2 ^ 23 + (k * 2 ^ 23 + 2 ^ 24) % 2 ^ 23 = 2 ^ 23 by omega, pow_succ 2 k]
      ring

/-- The next size is at least one quantum greater. -/
theorem units_next {k c : Nat} (hc : c ≤ 2 ^ 24) (hk : k = 0 ∨ 2 ^ 23 ≤ c) :
    (c + 1) * 2 ^ k ≤ units (k * 2 ^ 23 + c + 1) := by
  rcases Nat.lt_or_eq_of_le hc with h1 | h1
  · rw [Nat.add_assoc, units_significand (by omega) (by omega)]
  · have h2 := units_significand (k := k + 1) (c := 2 ^ 23 + 1) (by decide) (.inr (by decide))
    rw [show (k + 1) * 2 ^ 23 + (2 ^ 23 + 1) = k * 2 ^ 23 + c + 1 by omega] at h2
    rw [h2, h1, pow_succ 2 k]
    have : 0 < 2 ^ k := Nat.pos_of_ne_zero (by simp)
    generalize 2 ^ k = x at *
    omega

/-- Where a rounded size stands: `r` are its magnitude bits before the limit of infinity is put on them. -/
structure Between (n d r : Nat) : Prop where
  /-- The exact size is at most half way to the next size, and half way only if `r` is even. -/
  above : 2 * n ≤ (units r + units (r + 1)) * d
  tieAbove : 2 * n = (units r + units (r + 1)) * d → r % 2 = 0
  /-- It is at least half way from the size before, and half way only if `r` is even. -/
  below : ∀ q, r = q + 1 → (units q + units r) * d ≤ 2 * n
  tieBelow : ∀ q, r = q + 1 → (units q + units r) * d = 2 * n → r % 2 = 0

theorem roundMag_between (n d : Nat) (hd : 0 < d) :
    ∃ r, roundMag n d = min r infMag ∧ Between n d r := by
  simp only [roundMag]
  set k := Nat.log2 (n / d) - 23 with hk
  have hp : 0 < 2 ^ k := Nat.pos_of_ne_zero (by simp)
  have hq : 0 < d * 2 ^ k := Nat.mul_pos hd hp
  have hdiv : n / (d * 2 ^ k) = n / d / 2 ^ k := (Nat.div_div_eq_div_mul n d (2 ^ k)).symm
  have hm1 : n / (d * 2 ^ k) < 2 ^ 24 := by
    rw [hdiv]
    exact Nat.div_lt_of_lt_mul (by
      rw [Nat.mul_comm]
      exact lt_two_pow_quantum _)
  have hm2 : k = 0 ∨ 2 ^ 23 ≤ n / (d * 2 ^ k) := by
    rcases Nat.eq_zero_or_pos k with h | h
    · exact .inl h
    · right
      rw [hdiv, Nat.le_div_iff_mul_le hp]
      exact two_pow_quantum_le h
  have he := Nat.div_add_mod n (d * 2 ^ k)
  have hl := Nat.mod_lt n hq
  generalize n / (d * 2 ^ k) = m at *
  generalize n % (d * 2 ^ k) = rest at *
  refine ⟨_, rfl, ?_⟩
  by_cases hup : d * 2 ^ k < 2 * rest ∨ (2 * rest = d * 2 ^ k ∧ m % 2 = 1)
  · rw [if_pos hup]
    have hc : m + 1 ≤ 2 ^ 24 := hm1
    have hkc : k = 0 ∨ 2 ^ 23 ≤ m + 1 := by omega
    have hu := units_significand hc hkc
    have hu0 := units_significand (k := k) (c := m) (by omega) hm2
    have hn := units_next hc hkc
    rw [← Nat.add_assoc] at hu
    rw [← Nat.add_assoc (k * 2 ^ 23) m 1] at hn
    have hlt : n < (m + 1) * (d * 2 ^ k) := by rw [← he]; nlinarith
    have hge : (2 * m + 1) * (d * 2 ^ k) ≤ 2 * n := by rw [← he]; rcases hup with h | h <;> nlinarith
    have hstrict : 2 * n < (units (k * 2 ^ 23 + m + 1) + units (k * 2 ^ 23 + m + 1 + 1)) * d := by
      have h1 : (m + 1) * 2 ^ k * d ≤ units (k * 2 ^ 23 + m + 1 + 1) * d :=
        Nat.mul_le_mul_right d ((Nat.mul_le_mul_right _ (by omega)).trans hn)
      rw [hu]
      nlinarith
    refine ⟨hstrict.le, fun h => absurd h hstrict.ne, fun q hq' => ?_, fun q hq' ht => ?_⟩
    · obtain rfl : q = k * 2 ^ 23 + m := by omega
      rw [hu, hu0]
      nlinarith
    · obtain rfl : q = k * 2 ^ 23 + m := by omega
      rw [hu, hu0] at ht
      have hodd : m % 2 = 1 := by
        rcases hup with h | h
        · exfalso
          rw [← he] at ht
          nlinarith
        · exact h.2
      omega
  · rw [if_neg hup, Nat.add_zero]
    have hu := units_significand (k := k) (c := m) (by omega) hm2
    have hn := units_next (k := k) (c := m) (by omega) hm2
    have hle : 2 * rest ≤ d * 2 ^ k := by omega
    have hge : m * (d * 2 ^ k) ≤ n := by rw [← he]; nlinarith
    have h1 : (m + 1) * 2 ^ k * d ≤ units (k * 2 ^ 23 + m + 1) * d := Nat.mul_le_mul_right d hn
    have hab : 2 * n ≤ (units (k * 2 ^ 23 + m) + units (k * 2 ^ 23 + m + 1)) * d := by
      rw [hu, ← he]
      nlinarith
    have hbelow : ∀ q, k * 2 ^ 23 + m = q + 1 →
        (units q + units (k * 2 ^ 23 + m)) * d < 2 * n := by
      intro q hq'
      have h2 : units q * d < units (k * 2 ^ 23 + m) * d :=
        Nat.mul_lt_mul_of_pos_right (units_lt_units.2 (by omega)) hd
      rw [hu] at h2 ⊢
      nlinarith
    refine ⟨hab, fun ht => ?_, fun q hq' => (hbelow q hq').le, fun q hq' ht => ?_⟩
    · have : ¬m % 2 = 1 := by
        intro hodd
        have hne : 2 * rest ≠ d * 2 ^ k := fun h => hup (.inr ⟨h, hodd⟩)
        rw [hu, ← he] at ht
        have : 2 * rest < d * 2 ^ k := by omega
        nlinarith
      omega
    · exact absurd ht (hbelow q hq').ne

/-- The size that rounds to infinity is half way from the greatest finite size to the next. -/
theorem overflowUnits_eq : 2 * overflowUnits = units (infMag - 1) + units infMag := by
  decide +kernel

/-- Sizes from the overflow limit on, and only those, round to infinity. -/
theorem roundMag_eq_infMag {n d : Nat} (hd : 0 < d) :
    roundMag n d = infMag ↔ overflowUnits * d ≤ n := by
  obtain ⟨r, hr, hb⟩ := roundMag_between n d hd
  have ho := overflowUnits_eq
  have ha : 2 * overflowUnits * d = 2 * (overflowUnits * d) := Nat.mul_assoc _ _ _
  rw [hr]
  constructor
  · intro h
    have hle : infMag ≤ r := by omega
    obtain ⟨q, rfl⟩ : ∃ q, r = q + 1 := ⟨r - 1, by have := infMag_eq; omega⟩
    have h1 := hb.below q rfl
    have h2 : units (infMag - 1) ≤ units q := units_le_units.2 (by omega)
    have h3 : units infMag ≤ units (q + 1) := units_le_units.2 hle
    have h4 : 2 * overflowUnits * d ≤ 2 * n := by
      rw [ho]
      exact (Nat.mul_le_mul_right d (by omega)).trans h1
    omega
  · intro h
    by_contra hne
    have hlt : r < infMag := by omega
    have h1 := hb.above
    have h2 : units r ≤ units (infMag - 1) := units_le_units.2 (by omega)
    have h3 : units (r + 1) ≤ units infMag := units_le_units.2 hlt
    have h4 : (units r + units (r + 1)) * d ≤ 2 * overflowUnits * d := by
      rw [ho]
      exact Nat.mul_le_mul_right d (by omega)
    have h5 : 2 * n = (units r + units (r + 1)) * d := by omega
    have h6 := hb.tieAbove h5
    have h7 : 2 * overflowUnits * d = (units r + units (r + 1)) * d := by omega
    have h8 := Nat.eq_of_mul_eq_mul_right hd h7
    rw [ho] at h8
    have h9 : units r = units (infMag - 1) := by omega
    have h10 := units_strictMono.injective h9
    rw [h10] at h6
    have := infMag_eq
    omega

/-- At or past the middle of `b` and `c`, `c` is at least as near as anything up to `b`, and as near only there. -/
theorem abs_nearer_above {a b c n : Nat} (hab : a ≤ b) (hbc : b < c) (h : b + c ≤ 2 * n) :
    |(c : Int) - n| ≤ |(a : Int) - n| ∧ (|(c : Int) - n| = |(a : Int) - n| → b + c = 2 * n) := by
  rcases abs_cases ((c : Int) - n) with ⟨h1, h2⟩ | ⟨h1, h2⟩ <;>
    rcases abs_cases ((a : Int) - n) with ⟨h3, h4⟩ | ⟨h3, h4⟩ <;>
    rw [h1, h3] <;> omega

/-- At or before the middle of `c` and `b`, `c` is at least as near as anything from `b` on, and as near only there. -/
theorem abs_nearer_below {a b c n : Nat} (hab : b ≤ a) (hbc : c < b) (h : 2 * n ≤ c + b) :
    |(c : Int) - n| ≤ |(a : Int) - n| ∧ (|(c : Int) - n| = |(a : Int) - n| → 2 * n = c + b) := by
  rcases abs_cases ((c : Int) - n) with ⟨h1, h2⟩ | ⟨h1, h2⟩ <;>
    rcases abs_cases ((a : Int) - n) with ⟨h3, h4⟩ | ⟨h3, h4⟩ <;>
    rw [h1, h3] <;> omega

/-- Below the overflow limit the rounded size is finite and nearest, and even where another is as near. -/
theorem roundMag_nearest {n d : Nat} (hd : 0 < d) (hn : n < overflowUnits * d) (m : Nat) :
    roundMag n d < infMag ∧
      |(units (roundMag n d) : Int) * d - n| ≤ |(units m : Int) * d - n| ∧
      (|(units (roundMag n d) : Int) * d - n| = |(units m : Int) * d - n| →
        m ≠ roundMag n d → roundMag n d % 2 = 0) := by
  have hfin : roundMag n d < infMag :=
    lt_of_le_of_ne (roundMag_le n d) (fun h => absurd ((roundMag_eq_infMag hd).1 h) (by omega))
  obtain ⟨r, hr, hb⟩ := roundMag_between n d hd
  obtain rfl : roundMag n d = r := by omega
  refine ⟨hfin, ?_⟩
  generalize roundMag n d = r at *
  clear hr
  rcases Nat.lt_trichotomy m r with h | rfl | h
  · obtain ⟨q, rfl⟩ : ∃ q, r = q + 1 := ⟨r - 1, by omega⟩
    have h1 := hb.below q rfl
    have h2 := hb.tieBelow q rfl
    have h3 : units m * d ≤ units q * d := Nat.mul_le_mul_right d (units_le_units.2 (by omega))
    have h4 : units q * d < units (q + 1) * d :=
      Nat.mul_lt_mul_of_pos_right (units_lt_units.2 (by omega)) hd
    rw [Nat.add_mul] at h1 h2
    simp only [← Nat.cast_mul]
    have h5 := abs_nearer_above h3 h4 h1
    exact ⟨h5.1, fun ht _ => h2 (h5.2 ht)⟩
  · exact ⟨le_refl _, fun _ hne => absurd rfl hne⟩
  · have h1 := hb.above
    have h2 := hb.tieAbove
    have h3 : units (r + 1) * d ≤ units m * d := Nat.mul_le_mul_right d (units_le_units.2 h)
    have h4 : units r * d < units (r + 1) * d :=
      Nat.mul_lt_mul_of_pos_right (units_lt_units.2 (by omega)) hd
    rw [Nat.add_mul] at h1 h2
    simp only [← Nat.cast_mul]
    have h5 := abs_nearer_below h3 h4 h1
    exact ⟨h5.1, fun ht _ => h2 (h5.2 ht)⟩

/-! ### Rounding a signed exact result -/

@[simp] theorem natAbs_value (a : F32) : (value a).natAbs = units (mag a) := by
  unfold value
  cases sign a <;> simp

theorem value_ofMag (s : Bool) {m : Nat} (h : m < 2 ^ 31) :
    value (ofMag s m) = bif s then -(units m : Int) else (units m : Int) := by
  simp only [value, sign_ofMag _ _ h, mag_ofMag _ _ h]

/-- The nearest size to `N` is as near to it as any size of the other sign, and as near only if both are zero. -/
theorem abs_le_across {U C N : Int} (hC : 0 ≤ C) (hN : 0 ≤ N) (h0 : |U - N| ≤ |0 - N|) :
    |U - N| ≤ |-C - N| ∧ (|U - N| = |-C - N| → C = 0 ∧ |U - N| = |0 - N|) := by
  have e1 : |-C - N| = C + N := by
    rw [abs_of_nonpos (by omega)]
    omega
  have e2 : |0 - N| = N := by
    rw [abs_of_nonpos (by omega)]
    omega
  rw [e1]
  rw [e2] at h0 ⊢
  constructor
  · omega
  · intro ht
    constructor <;> omega

/-- The nearest value to an exact result that is not negative. -/
theorem nearest_of_nonneg {n d : Nat} (hd : 0 < d) (hn : n < overflowUnits * d) (c : F32) :
    |(units (roundMag n d) : Int) * d - n| ≤ |value c * d - n| ∧
      (|(units (roundMag n d) : Int) * d - n| = |value c * d - n| →
        value c ≠ (units (roundMag n d) : Int) → roundMag n d % 2 = 0) := by
  obtain ⟨-, hb, ht⟩ := roundMag_nearest hd hn (mag c)
  obtain ⟨-, hb0, ht0⟩ := roundMag_nearest hd hn 0
  simp only [units_zero, Nat.cast_zero, zero_mul] at hb0 ht0
  have hc : value c = (units (mag c) : Int) ∨ value c = -(units (mag c) : Int) := by
    unfold value
    cases sign c <;> simp
  rcases hc with hc | hc
  · rw [hc]
    exact ⟨hb, fun h hne => ht h (fun e => hne (by rw [e]))⟩
  · have hx := abs_le_across (C := (units (mag c) : Int) * d) (N := n) (by positivity)
      (by positivity) hb0
    rw [hc, neg_mul]
    refine ⟨hx.1, fun h hne => ht0 (hx.2 h).2 (fun e => hne ?_)⟩
    have h0 : (units (mag c) : Int) = 0 := by
      rcases mul_eq_zero.1 (hx.2 h).1 with h1 | h1
      · exact h1
      · omega
    rw [h0, ← e]
    simp

/-- The value with the exact result's sign and the rounded magnitude is the rounded result (R8). -/
theorem isRounded_ofMag {num : Int} {d : Nat} (s : Bool) (hd : 0 < d)
    (hs : num ≠ 0 → s = decide (num < 0)) :
    IsRounded num d (ofMag s (roundMag num.natAbs d)) := by
  have habs : |num| = num.natAbs := Int.abs_eq_natAbs num
  have hover : 0 < overflowUnits * d := Nat.mul_pos (by decide +kernel) hd
  unfold IsRounded
  split
  · next h =>
    have h1 : overflowUnits * d ≤ num.natAbs := by
      rw [habs] at h
      exact_mod_cast h
    rw [(roundMag_eq_infMag hd).2 h1, hs (by omega)]
  · next h =>
    have h1 : num.natAbs < overflowUnits * d := by
      rw [habs] at h
      exact_mod_cast not_le.1 h
    have hfin := (roundMag_nearest hd h1 0).1
    have hlt : roundMag num.natAbs d < 2 ^ 31 := by
      have := infMag_eq
      omega
    refine ⟨by rwa [isFinite_iff_lt, mag_ofMag _ _ hlt, ← infMag_eq], fun c _ => ?_⟩
    have hpar : (ofMag s (roundMag num.natAbs d)).toNat % 2 = roundMag num.natAbs d % 2 := by
      rw [toNat_ofMag _ _ hlt]
      split <;> omega
    rw [hpar, value_ofMag s hlt]
    rcases Int.lt_trichotomy num 0 with hneg | rfl | hpos
    · have hk := nearest_of_nonneg hd h1 (neg c)
      have hm : (num.natAbs : Int) = -num := by omega
      have f : ∀ x : Int, |-x * d - num| = |x * d - -num| := fun x => by
        rw [show -x * d - num = -(x * d - -num) by ring, abs_neg]
      have g : |value c * d - num| = |value (neg c) * d - -num| := by
        rw [value_neg, ← f, Int.neg_neg]
      rw [hm] at hk
      have hs' : s = true := by rw [hs hneg.ne, decide_eq_true hneg]
      subst hs'
      rw [cond_true, f, g]
      refine ⟨hk.1, fun h hne => hk.2 h (fun e => hne ?_)⟩
      rw [value_neg] at e
      omega
    · have hz : roundMag 0 d = 0 := by
        have := roundMag_units (m := 0) hd (Nat.zero_le _)
        simpa using this
      simp [hz]
      positivity
    · have hk := nearest_of_nonneg hd h1 c
      have hm : (num.natAbs : Int) = num := by omega
      rw [hm] at hk
      have hs' : s = false := by
        rw [hs hpos.ne']
        simp
        omega
      rw [hs']
      exact hk

end Sys2Proof.Laws
end

