-- ==== Sys2Proof/Laws/Step.lean ====
section
/-! SUPPORT. What the event commands and a step can do: one lemma for each shared operation (Machine/Events.lean,
Machine/Agents.lean, Machine/Step.lean). -/

namespace Sys2Proof.Laws

open Sys2Proof.Machine Sys2Proof.Safety

/-- Everything `takeWord` can do. -/
theorem takeWord_cases {pick : Nat → Bool} {s s' : State} {w : Word} (h : takeWord pick s = some (w, s')) :
    (s.eventQueue = w :: s'.eventQueue ∧ s'.renderQueue = s.renderQueue ∨
      s.renderQueue = w :: s'.renderQueue ∧ s'.eventQueue = s.eventQueue) ∧
    s' = s.setQueues s'.eventQueue s'.renderQueue s'.turns := by
  unfold takeWord at h
  split at h
  · cases h
  · cases h
    simp_all [State.setQueues]
  · cases h
    simp_all [State.setQueues]
  · split at h <;> (cases h; simp_all [State.setQueues])

theorem takeWord_eq_none {pick : Nat → Bool} {s : State} :
    takeWord pick s = none ↔ s.eventQueue = [] ∧ s.renderQueue = [] := by
  unfold takeWord
  split <;> simp_all
  split <;> simp

/-- Taking a word leaves one word fewer waiting. -/
theorem waiting_takeWord {pick : Nat → Bool} {s s' : State} {w : Word}
    (h : takeWord pick s = some (w, s')) : waiting s = waiting s' + 1 := by
  rcases (takeWord_cases h).1 with ⟨h1, h2⟩ | ⟨h1, h2⟩ <;> simp [waiting, h1, h2] <;> omega

/-- No command changes the words waiting or the number of the next choice between the agents (R28). -/
theorem exec_queues {i : Instr} {s t : State} (h : exec i s = .next t) :
    t.eventQueue = s.eventQueue ∧ t.renderQueue = s.renderQueue ∧ t.turns = s.turns := by
  cases i with
  | nop => cases h; simp
  | noteOn note =>
    cases h
    simp only [noteOn]
    split <;> simp
  | noteOff note => cases h; simp [noteOff]
  | setCtrl index value => cases h; simp [setController]
  | render n =>
    cases h
    simp only [render_eq, handOver_eventQueue, handOver_renderQueue, handOver_turns]
    exact ⟨sampleSteps_field _ (fun _ => rfl) n s, sampleSteps_field _ (fun _ => rfl) n s,
      sampleSteps_field _ (fun _ => rfl) n s⟩

/-- Every command has a next state (R101). -/
theorem exec_next (i : Instr) (s : State) : ∃ t, exec i s = .next t := by
  cases i <;> exact ⟨_, rfl⟩

/-- Everything a step can do: nothing, an ignored word taken, or a decoded command executed after its word is
taken. -/
theorem step_cases {s t : State} (h : step s = .next t) :
    (takeWord Config.eventFirst s = none ∧ t = s) ∨
    (∃ w s' r, takeWord Config.eventFirst s = some (w, s') ∧ decode w = .error r ∧ t = s') ∨
    (∃ w s' i, takeWord Config.eventFirst s = some (w, s') ∧ decode w = .ok i ∧
      i.WellFormed = true ∧ exec i s' = .next t) := by
  unfold step at h
  split at h
  · next hw =>
    cases h
    exact .inl ⟨hw, rfl⟩
  · next w s' hw =>
    split at h
    · next i hd => exact .inr (.inr ⟨w, s', i, hw, hd, decode_wellFormed hd, h⟩)
    · next r hd =>
      cases h
      exact .inr (.inl ⟨w, _, r, hw, hd, rfl⟩)

/-- An invariant of the block is one that does not read the queues and that every well-formed command keeps. -/
theorem step_keeps {P : State → Prop}
    (hq : ∀ s es rs k, P s → P (s.setQueues es rs k))
    (he : ∀ i s t, i.WellFormed = true → P s → exec i s = .next t → P t)
    {s t : State} (hs : P s) (h : step s = .next t) : P t := by
  rcases step_cases h with ⟨-, rfl⟩ | ⟨w, s', r, hw, -, rfl⟩ | ⟨w, s', i, hw, -, hi, hx⟩
  · exact hs
  · rw [(takeWord_cases hw).2]
    exact hq _ _ _ _ hs
  · refine he i s' t hi ?_ hx
    rw [(takeWord_cases hw).2]
    exact hq _ _ _ _ hs

/-! ### The voice table -/

theorem mem_withoutNote {note : Nat} {vs : List Voice} {v : Voice} :
    v ∈ withoutNote note vs ↔ v ∈ vs ∧ v.note ≠ note := by
  simp [withoutNote]

@[simp] theorem hasRoom_unbounded (vs : List Voice) : hasRoom Config.params vs = true := rfl

/-- NOTE_ON in the spec's own block, whose voice table is unbounded (R6, R57). -/
theorem noteOn_unbounded (note : Nat) (s : State) :
    noteOn Config.params note s =
      ((s.setVoices (s.voices ++ [⟨note, freq Config.params (s.nan Config.params) note⟩])).setGate
        k1).useDraws 3 := by
  simp only [noteOn, hasRoom_unbounded, if_true]

end Sys2Proof.Laws
end

