-- ==== Sys2Proof/Tests/Slice0.lean ====
section
/-! SUPPORT. The model's own tests and the witnesses of the statements' hypotheses.  Every expected result is the spec's:
a worked example of a rule or a vector of 95_test_vectors.md.  A vector marked (P) there holds for every choice of the
configuration functions and is tested on the block itself or under a plain choice (`plain`).  The others hold under the
spec's reference numerics, which `reference` gives at the arguments that occur, as correctly rounded values worked out
outside the model. -/

-- Each kernel evaluation would otherwise hold a thread of its own, and together they exceed the check's memory limit.
set_option Elab.async false

namespace Sys2Proof.Tests

open Sys2Proof Sys2Proof.Machine Sys2Proof.Safety

/-! ### WellFormed refuses, one ill-formed term a check -/

theorem test_wellFormed_noteOn_refuses_128 : (Instr.noteOn 128).WellFormed = false := by decide
theorem test_wellFormed_noteOff_refuses_128 : (Instr.noteOff 128).WellFormed = false := by decide
theorem test_wellFormed_setCtrl_refuses_index_256 : (Instr.setCtrl 256 0).WellFormed = false := by decide
theorem test_wellFormed_setCtrl_refuses_value_128 : (Instr.setCtrl 1 128).WellFormed = false := by decide
theorem test_wellFormed_render_refuses_65536 : (Instr.render 65536).WellFormed = false := by decide
theorem test_wellFormed_accepts_largest :
    ([.nop, .noteOn 127, .noteOff 127, .setCtrl 255 127, .render 65535].all Instr.WellFormed) = true := by
  decide

/-! ### Decoding: words written out bit by bit from the formats of R46 -/

theorem test_decode_nop : decode 0b00000000000000000000000000000000 = .ok .nop := by decide
theorem test_decode_noteOn : decode 0b00000001010001010000000000000000 = .ok (.noteOn 69) := by decide
theorem test_decode_noteOff : decode 0b00000010001111000000000000000000 = .ok (.noteOff 60) := by decide
theorem test_decode_setCtrl : decode 0b00000011111111110000000001000000 = .ok (.setCtrl 255 64) := by decide
theorem test_decode_render : decode 0b00000100000000001111111111111111 = .ok (.render 65535) := by decide

/-- L2-DEC-2, -5, -6, -9, -14, -15, -16: the words that are ignored. -/
theorem test_decode_ignored :
    decode 0x00000001 = .error .malformedNop ∧
    decode 0x01800000 = .error .malformedNoteOn ∧
    decode 0x01450001 = .error .malformedNoteOn ∧
    decode 0x02800000 = .error .malformedNoteOff ∧
    decode 0x03010080 = .error .malformedSetCtrl ∧
    decode 0x04010004 = .error .malformedRender ∧
    decode 0x05000000 = .error (.unassignedOpcode 0x05) ∧
    decode 0xFFFFFFFF = .error (.unassignedOpcode 0xFF) := by decide

/-- The host's numbering of a table row's bits. -/
theorem test_decodeTableWord : decodeTableWord 32 0x0301007F = some (.setCtrl 1 127) := by decide

/-- R34: the first byte is the opcode; two bytes are not a word yet. -/
theorem test_transport_big_endian :
    wordsOfBytes [0x03, 0x01, 0x00, 0x7F, 0x04, 0x00] = ([0x0301007F], [0x04, 0x00]) := by decide

/-- L3-P4 and R56: comments, `.word`, `0x`, the default of `render` and the pseudo-commands. -/
theorem test_assembler :
    (assembleText Config.params
      "set_ctrl 5, 100 ; no 5th controller\n.word 0x01800000\n\nrender\nset_cutoff 64\nset_lfo_rate 127").toOption =
      some [0x03050064, 0x01800000, 0x04000040, 0x03010040, 0x0302007F] := by decide +kernel

/-- R56: "An assembler refuses an operand outside its range rather than masking it." -/
theorem test_assembler_refuses_note_128 :
    (assembleText Config.params "note_on 128").toOption = none := by decide +kernel

/-! ### Arithmetic (R8): ties, subnormals, overflow, signed zeros, NaN -/

/-- The spec's tie: `(GATE - AMP) / 64.0 = 2^-25` is half a unit in the last place of `AMP` = 0x3F7FFFE0 (R67). -/
theorem test_add_tie_to_even : Fp.add 0 0x3F7FFFE0 0x33000000 = 0x3F7FFFE0 := by decide +kernel
theorem test_mul_underflow_keeps_subnormal : Fp.mul 0 0x00000001 0x40000000 = 0x00000002 := by
  decide +kernel
theorem test_mul_overflow_is_infinity : Fp.mul 0 0x7F000000 0xC0000000 = 0xFF800000 := by decide +kernel
theorem test_sub_cancels_to_plus_zero : Fp.sub 0 0x3F800000 0x3F800000 = 0x00000000 := by decide +kernel
theorem test_infinity_minus_infinity_is_the_draw :
    Fp.sub 0x80000123 0x7F800000 0x7F800000 = 0xFF800123 := by decide +kernel
theorem test_comparison_of_zeros_and_nan :
    Fp.eq 0x80000000 0x00000000 = true ∧ Fp.gt 0x3F800000 0x7FC00000 = false := by decide +kernel
/-- R10, R11: the constants that are whole numbers, and those derived from `R` = 44100. -/
theorem test_constants :
    [k0, k1, k2, k10, k12, k50, k69, k100, k127, k440, kMaxF, kEnvDiv] =
      [0, 1, 2, 10, 12, 50, 69, 100, 127, 440, 20000, 64].map Fp.ofNat ∧
    Config.params.dt = 0x37BE37C6 ∧ Config.params.clampLimit = 0x46AA8B00 := by decide +kernel

/-! ### Configuration functions for tests and witnesses -/

/-- A plain choice of the functions with the properties P1 to P6. -/
def plain : Params := { Config.params with
  sin := fun _ => k0
  cos := fun _ => k1
  exp := fun _ => k1
  pow2 := fun x => if x = k1 then k2 else k1
  nanDraw := fun _ => 0 }

theorem plain_properties : plain.Properties where
  p1 := rfl
  p2 := by decide
  p3 := by decide
  p5 := rfl
  p6sin := fun _ _ => show withinOne k0 = true by decide
  p6cos := fun _ _ => show withinOne k1 = true by decide
  p6exp := fun _ _ => show isPositive k1 = true by decide

/-- A function given at a few arguments. -/
def atPoints (points : List (F32 × F32)) (x : F32) : F32 :=
  ((points.find? (fun e => e.1 == x)).map Prod.snd).getD 0

/-- The reference numerics (R12) at the arguments that occur below. -/
def reference : Params := { plain with
  sin := atPoints [(0, 0), (0x3B365E7E, 0x3B365E6F), (0x3DB65E7E, 0x3DB620D1),
    (0x3D80634A, 0x3D804DC4), (0x3E00634A, 0x3E000D3F), (0x40365E7E, 0x3E936CE8)]
  cos := atPoints [(0x3B365E7E, 0x3F7FFFBF), (0x3DB65E7E, 0x3F7EFC57), (0x40365E7E, 0xBF752872)]
  exp := atPoints [(0, k1), (0xC0DDCE9E, 0x3A800000), (0xC05DCE9E, 0x3D000000)]
  pow2 := atPoints [(0, k1), (0xBF400000, 0x3F1837F0), (0x409AAAAB, 0x41E411F2)] }

/-! ### Commands -/

/-- L2-CMD-1 (P), on the block itself: only P2 is used. -/
theorem test_noteOn_69 :
    (noteOn Config.params 69 State.reset).voices = [⟨69, 0x43DC0000⟩] := by decide +kernel
/-- L2-CMD-6 (P): a full table of one voice. -/
theorem test_noteOn_full_table :
    (noteOn { plain with voiceCapacity := some 1 } 64
      { State.reset with voices := [⟨60, 0x4382D012⟩] }).voices = [⟨60, 0x4382D012⟩] := by decide +kernel
/-- R58: `FREQ(60)` and `FREQ(127)`. -/
theorem test_freq :
    (freq reference (fun _ => 0) 60, freq reference (fun _ => 0) 127) = (0x4382D012, 0x4643FF6C) := by
  decide +kernel
/-- R59's example, with the gate. -/
theorem test_noteOff_double_note :
    (noteOff 60 { State.reset with voices := [⟨60, k1⟩, ⟨60, k1⟩, ⟨64, k2⟩] }).voices = [⟨64, k2⟩] ∧
    (noteOff 60 State.reset).gate = k1 := by decide +kernel
/-- R61's example and the table of 95_test_vectors.md 2.2. -/
theorem test_setCtrl_values :
    [1, 2, 63, 64, 100, 126, 127].map controllerValue =
      [0x3C010204, 0x3C810204, 0x3EFDFBF8, 0x3F010204, 0x3F499326, 0x3F7DFBF8, 0x3F800000] := by
  decide +kernel
/-- L2-CMD-8 and -9: index 2 writes `CTRL2`, index 5 nothing. -/
theorem test_setCtrl_index :
    (setController 2 127 State.reset).ctrl2 = k1 ∧ setController 5 100 State.reset = State.reset := by
  decide +kernel
/-- L3-P4's malformed render, as a step: no block, nothing changed. -/
theorem test_step_malformed_render :
    step (State.reset.withFetchWord 32 0x04010004) = .next State.reset := by rfl
/-- L2-RND-2: the block of `render 2` from reset, each frame twice. -/
theorem test_render_2_block :
    (render reference 2 State.reset).output = [[0x3F7FFFE0, 0x3F7FFFE0, 0x3F7FFF5C, 0x3F7FFF5C]] := by
  decide +kernel
/-- L3-P2 with `render 4`: `AMP`, `T` and the last value. -/
theorem test_render_4_scenario :
    let s := render { reference with sin := atPoints [(0, 0), (0x3DB65E7E, 0x3DB620D1),
        (0x3D80634A, 0x3D804DC4), (0x3E00634A, 0x3E000D3F), (0x3E4094EE, 0x3E3F72D1)] } 4
      (noteOn reference 69 (setController 2 0 (setController 1 127 State.reset)))
    (s.amp, s.t, s.filter.y0, s.lfs) = (0x3D7A0FF0, 0x38BE37C6, 0x3F7582C0, 0x3F7582C0) := by
  decide +kernel

/-! ### The units of the sample step -/

/-- L2-ENV-2, -4, -5, -6 (P). -/
theorem test_envStep :
    [envStep (fun _ => 0) k0 k1, envStep (fun _ => 0) 0x3F7FFFDF k1, envStep (fun _ => 0) 0x3F7FFFE0 k1,
      envStep (fun _ => 0) 0x3F000000 k0] = [0x3C800000, 0x3F7FFFE0, 0x3F7FFFE0, 0x3EFC0000] := by
  decide +kernel
/-- L2-OSC-1 (P), L2-OSC-2, L2-OSC-8: note 69 at `T` = +0.0, at `DT`, and with the smallest envelope. -/
theorem test_oscSum :
    [oscSum reference (fun _ => 0) [⟨69, k440⟩] k1 k0, oscSum reference (fun _ => 0) [⟨69, k440⟩] k1 0x37BE37C6,
      oscSum reference (fun _ => 0) [⟨69, k440⟩] 1 0x37BE37C6] = [kMinus1, k1, kMinus1] := by
  decide +kernel
/-- L2-OSC-6 (P): three voices with a closed envelope. -/
theorem test_oscSum_closed :
    oscSum plain (fun _ => 0) [⟨60, k1⟩, ⟨60, k1⟩, ⟨64, k2⟩] k0 0x37BE37C6 = 0xC0400000 := by decide +kernel
/-- 95_test_vectors.md 2.5 at k = 0 (P): depth 100 gives 50.0, depth 64 gives 25.196849822998047. -/
theorem test_lfoMap :
    [lfoMap plain (fun _ => 0) (controllerValue 127) k1 k0, lfoMap plain (fun _ => 0) (controllerValue 64) k1 k0] =
      [0x42480000, 0x41C99326] := by decide +kernel
/-- L2-COEF-4: cutoff 100.0 at `R` = 44100. -/
theorem test_coef_100 :
    let f := coef reference (fun _ => 0) k100 FilterState.reset
    [f.a0, f.a1, f.a2, f.b1, f.b0b2] = [0x3F926D9D, 0x3FF52872, 0x3F5B24C6, 0x3FFA9439, 0x3F7A9439] := by
  decide +kernel
/-- L2-COEF-8's limit: `R` = 32000 clamps 20000.0 to 15840.0, and with the clamp off does not. -/
theorem test_clamp_32000 :
    clampFrequency { plain with sampleRate := 32000 } kMaxF = 0x46778000 ∧
    clampFrequency { plain with sampleRate := 32000, nyquistClamp := false } kMaxF = kMaxF := by
  decide +kernel
/-- L2-BQ-3: the coefficients of L2-COEF-1 and the reset seed with the input −1.0. -/
theorem test_biquad :
    (biquad (fun _ => 0) kMinus1 { FilterState.reset with
      a0 := 0x3F802D98, a1 := 0xBFFFFFBF, a2 := 0x3F7FA4D1, b1 := 0x36820000, b0b2 := 0x36020000 }).y0 =
      0x3F7FFFC0 := by decide +kernel

/-! ### Witnesses: states and operands that meet the hypotheses of the statements -/

/-- A state some run reaches: one note pressed, one sample step done. -/
def sounding : State := { State.reset with
  gate := k1, amp := 0x3C800000, t := 0x37BE37C6, voices := [⟨69, k440⟩] }

theorem witness_DecodeOfEncodeIsTheCommand : (Instr.setCtrl 255 127).WellFormed = true := by decide
theorem witness_EncodeOfDecodeIsTheWord : decode 0x017F0000 = .ok (.noteOn 127) := by decide
theorem witness_DecoderFollowsOpcodeMap :
    opcodeTable.map (fun r => r.matchesWord 0x04000040) = [false, false, false, false, true] := by decide
theorem witness_StepRunsTheDecodedCommand :
    decode 0x01450000 = .ok (.noteOn 69) ∧ decode 0x04000001 = .ok (.render 1) ∧
    (State.reset.issue .event 0x01450000).eventQueue = [0x01450000] ∧
    (State.reset.issue .event 0x01450000).renderQueue = [] ∧
    (State.reset.issue .render 0x01450000).renderQueue = [0x01450000] ∧
    (State.reset.issue .render 0x01450000).eventQueue = [] ∧
    ((State.reset.issue .event 0x01450000).issue .render 0x04000001).renderQueue = [0x04000001] := by
  decide
theorem witness_PlacedWordIsTheNextCommand : decodeTableWord 32 0x04000001 = some (.render 1) := by decide
theorem witness_IgnoredWordChangesNothing :
    takeWord Config.eventFirst (State.reset.issue .event 0x05000000) = some (0x05000000, State.reset) ∧
    decode 0x05000000 = .error (.unassignedOpcode 5) := ⟨rfl, by decide⟩
theorem witness_IdleBlockHoldsItsState : sounding.eventQueue = [] ∧ sounding.renderQueue = [] := ⟨rfl, rfl⟩
theorem witness_EveryInterleavingIsAnExecution :
    let s := (State.reset.issue .event 0x01450000).issue .render 0x04000001
    Interleaving s.eventQueue s.renderQueue [0x04000001, 0x01450000] := .render (.event .done)
theorem witness_NoteOnAppendsItsVoiceAndSetsGate :
    plain.voiceCapacity = none ∧
    ({ plain with voiceCapacity := some 2 } : Params).voiceCapacity = some 2 ∧ sounding.voices.length < 2 ∧
    ({ plain with voiceCapacity := some 1 } : Params).voiceCapacity = some 1 ∧ 1 ≤ sounding.voices.length := by
  decide
theorem witness_NoteFrequencyIsEqualTempered : plain.Properties := plain_properties
theorem witness_SetCtrlWritesItsController :
    ¬(1 ≤ 0 ∧ 0 ≤ 4) ∧ ¬(1 ≤ 5 ∧ 5 ≤ 4) ∧ ¬(1 ≤ 255 ∧ 255 ≤ 4) := by decide
theorem witness_EventCommandsLeaveTheRest :
    (∀ n, Instr.setCtrl 1 127 ≠ .render n) ∧
    exec (.setCtrl 1 127) sounding = .next { sounding with ctrl1 := controllerValue 127 } ∧
    (∀ index value, Instr.noteOff 69 ≠ .setCtrl index value) ∧
    exec (.noteOff 69) sounding = .next { sounding with voices := [], gate := k1 } :=
  ⟨nofun, rfl, nofun, rfl⟩
theorem witness_OutputBlockIsInterleavedFrames : 5 < plain.channels * 3 := by decide
theorem witness_RenderLeavesTheCommandRegisters :
    exec (.render 3) sounding = .next (render Config.params 3 sounding) := rfl
theorem witness_SampleStepAdvancesTheEnvelope : State.reset.gate = k0 ∧ State.reset.amp = k0 := by decide
theorem witness_EnvelopeRisesUntilItStalls :
    k0.toNat < 0x3F7FFFE0 ∧ (0x3F7FFFDF : F32).toNat < 0x3F7FFFE0 ∧
    (0x3F7FFFE0 : F32).toNat = 0x3F7FFFE0 := by decide
theorem witness_OscillatorSumIsAnInteger : sounding.voices.length ≤ 2 ^ 24 := by decide
theorem witness_ClosedEnvelopeForcesMinusOnePerVoice : sounding.voices.length ≤ 2 ^ 24 := by decide
theorem witness_EnvelopeGatesBySignOnly :
    0x3C800000 ≤ (0x3C800000 : F32).toNat ∧ (0x3C800000 : F32).toNat < 0x7F800000 ∧
    32 < Fp.mag 0x80000021 := by decide
theorem witness_StoppedLfoHoldsHalfTheDepth :
    plain.Properties ∧ 127 < 128 ∧ (0x44000000 : F32).toNat ≤ 0x44000000 :=
  ⟨plain_properties, by decide, by decide⟩
theorem witness_CutoffStaysWithinItsDepth :
    plain.Properties ∧ 0 < 128 ∧ 127 < 128 ∧ (0x44000000 : F32).toNat ≤ 0x44000000 :=
  ⟨plain_properties, by decide, by decide, by decide⟩
theorem witness_CoefficientsAreTheFormulas : plain.Properties := plain_properties
theorem witness_NyquistClampLimitsTheFrequency :
    ({ plain with nyquistClamp := false } : Params).nyquistClamp = false ∧ plain.nyquistClamp = true ∧
    Fp.gt 0x46AA8B01 plain.clampLimit = true ∧ Fp.gt 0x46AA8B00 plain.clampLimit = false ∧
    Fp.eq 0x46AA8B00 plain.clampLimit = true ∧ Fp.isNaN 0x7FC00000 = true := by decide +kernel
theorem witness_FilterDivisorIsAtLeastHalf :
    k0.toNat ≤ 0x42C80000 ∧ k100.toNat ≤ 0x42C80000 := by decide
theorem witness_NaNInTheDelayLineStaysForEver :
    Fp.isNaN ({ State.reset with filter := { FilterState.reset with y2 := 0x7FC00000 } }).filter.y2 = true := by
  decide
theorem witness_TimeNeverFallsAndFreezes :
    k0.toNat ≤ 0x44000000 ∧ (0x44000000 : F32).toNat ≤ 0x44000000 := by decide
theorem witness_SumsAreCorrectlyRounded :
    Fp.isFinite 0x7F7FFFFF = true ∧ Fp.isFinite 0x80000000 = true := by decide
theorem witness_ProductsAreCorrectlyRounded :
    Fp.isFinite 0x00000001 = true ∧ Fp.isFinite 0xBF800000 = true := by decide
theorem witness_QuotientsAreCorrectlyRounded :
    Fp.isFinite 0x3F800000 = true ∧ Fp.isFinite 0x80000001 = true ∧ Fp.isZero 0x80000001 = false := by
  decide
theorem witness_NaNResultsAreTheDraw :
    Fp.isNaN (Fp.add 0 0x7F800000 0xFF800000) = true ∧ Fp.isNaN (Fp.sub 0 0x7F800000 0x7F800000) = true ∧
    Fp.isNaN (Fp.mul 0 0x7F800000 0x80000000) = true ∧ Fp.isNaN (Fp.div 0 0 0) = true := by
  decide +kernel
theorem witness_InfinitiesAndZerosFollowIeee754_sums :
    Fp.isInf 0xFF800000 = true ∧ Fp.isNaN (Fp.add 0 0xFF800000 0x7F7FFFFF) = false ∧
    Fp.isNaN (Fp.add 0 0x7F7FFFFF 0xFF800000) = false ∧ Fp.isNaN (Fp.sub 0 0xFF800000 0x7F800000) = false ∧
    Fp.isNaN (Fp.sub 0 0x80000000 0xFF800000) = false ∧ Fp.isFinite 0x80000000 = true ∧
    Fp.value 0x80000000 + Fp.value 0x80000000 = 0 ∧ Fp.value 0x80000000 = Fp.value 0 := by decide +kernel
theorem witness_InfinitiesAndZerosFollowIeee754_products :
    Fp.isNaN (Fp.mul 0 0xFF800000 0x00000001) = false ∧ Fp.isNaN (Fp.mul 0 0x80000000 0x7F7FFFFF) = false ∧
    Fp.isNaN (Fp.div 0 0xFF800000 0x80000000) = false ∧ Fp.isNaN (Fp.div 0 0x3F800000 0x80000000) = false ∧
    Fp.isNaN (Fp.div 0 0x80000000 0x7F800000) = false ∧ Fp.isInf 0x7F800000 = true := by decide +kernel
theorem witness_SmallIntegersConvertExactly : 2 ^ 24 - 1 < 2 ^ 24 := by decide

theorem sounding_legal : RegistersLegal sounding where
  gate := .inr rfl
  ctrl1 := ⟨0, by decide, by decide +kernel⟩
  ctrl2 := ⟨0, by decide, by decide +kernel⟩
  ctrl3 := ⟨0, by decide, by decide +kernel⟩
  ctrl4 := ⟨0, by decide, by decide +kernel⟩
  voices := fun v hv => by
    obtain rfl : v = ⟨69, k440⟩ := by simpa [sounding] using hv
    exact ⟨by decide, fun _ => 0, by decide +kernel⟩
  q := rfl
  resPct := rfl
  output := nofun

theorem witness_StepKeepsRegistersLegal : RegistersLegal sounding ∧ step sounding = .next sounding :=
  ⟨sounding_legal, rfl⟩
theorem witness_StepKeepsTimeLegal : TimeLegal sounding ∧ step sounding = .next sounding :=
  ⟨show (0x37BE37C6 : F32).toNat ≤ 0x44000000 by decide, rfl⟩
theorem witness_StepKeepsEnvelopeLegal : EnvelopeLegal sounding ∧ step sounding = .next sounding :=
  ⟨⟨.inr rfl, by decide, fun h => absurd h (by decide)⟩, rfl⟩
theorem witness_GateAndEnvelopeNeverFall :
    sounding.gate = k1 ∧ sounding.amp.toNat ≤ 0x3F7FFFE0 ∧ step sounding = .next sounding :=
  ⟨rfl, by decide, rfl⟩
theorem witness_VoiceCountIsTheHeldNoteCount :
    (∀ c ∈ [Instr.noteOn 60, .noteOn 60, .noteOn 64, .noteOff 60], isNoteCommand c = true) ∧
    heldNotes [.noteOn 60, .noteOn 60, .noteOn 64, .noteOff 60] = 1 := by decide
theorem witness_UnreadRegistersNeverReachTheOutput :
    SameToHost sounding { sounding with ctrl3 := k1, lfs := k2 } ∧ step sounding = .next sounding :=
  ⟨⟨rfl, rfl, rfl, rfl, rfl, rfl, rfl, rfl, rfl, rfl, rfl, rfl, rfl, rfl, rfl⟩, rfl⟩

end Sys2Proof.Tests
end

section
/-! PROOFS. The statements of spec 00_scope.md: the arithmetic of R8, correctly rounded on finite values
and as IEEE 754 has it at the infinities and zeros, `fp(n)`, and the properties of R12 that the block's
functions have. -/

namespace Sys2Proof.Proofs

open Sys2Proof.Fp Sys2Proof.Laws Sys2Proof.Safety

/-! ### The sign of an exact result -/

/-- The sign bit of a value that is not a zero is the sign of its number. -/
theorem sign_eq_decide_value_neg {a : F32} (h : value a ≠ 0) : sign a = decide (value a < 0) := by
  cases hs : sign a
  · simp [value, hs]
  · simp only [value, hs, cond_true] at h ⊢
    exact (decide_eq_true (by omega)).symm

/-- A product that is not zero is negative just when its factors' signs differ. -/
theorem decide_neg_bne {x y : Int} (h : x * y ≠ 0) :
    (decide (x < 0) != decide (y < 0)) = decide (x * y < 0) := by
  obtain ⟨hx, hy⟩ := mul_ne_zero_iff.1 h
  by_cases hx' : x < 0
  · have hxy : x * y < 0 ↔ ¬y < 0 := by rw [mul_neg_iff]; omega
    rw [decide_eq_true hx', decide_eq_decide.2 hxy, decide_not, Bool.true_bne]
  · have hxy : x * y < 0 ↔ y < 0 := by rw [mul_neg_iff]; omega
    rw [decide_eq_false hx', decide_eq_decide.2 hxy, Bool.false_bne]

/-! ### Finite operands -/

@[simp] theorem isFinite_neg (a : F32) : isFinite (neg a) = isFinite a := by simp [isFinite]

@[simp] theorem roundMag_zero {d : Nat} (hd : 0 < d) : roundMag 0 d = 0 := by
  simpa using roundMag_units (m := 0) hd (Nat.zero_le _)

theorem add_isRounded {a b : F32} (d : F32) (ha : isFinite a = true) (hb : isFinite b = true) :
    IsRounded (value a + value b) 1 (add d a b) := by
  by_cases hz : value a + value b = 0
  · rw [add_cancel ha hb hz, hz]
    simpa using isRounded_ofMag (num := 0) (d := 1) (sign a && sign b) one_pos (by simp)
  · rw [add_finite ha hb hz]
    exact isRounded_ofMag _ one_pos fun _ => rfl

/-- Settles O45: the exact sum is rounded once with its own sign, and a difference is the sum with the second
term negated. -/
theorem sumsAreCorrectlyRounded : Obligations.SumsAreCorrectlyRounded := by
  intro d a b ha hb
  refine ⟨add_isRounded d ha hb, ?_⟩
  rw [sub, Int.sub_eq_add_neg, ← value_neg]
  exact add_isRounded d ha ((isFinite_neg b).trans hb)

/-- Settles O46: the exact product is rounded once, and where it is not zero the exclusive or of the signs is its
sign. -/
theorem productsAreCorrectlyRounded : Obligations.ProductsAreCorrectlyRounded := by
  intro d a b ha hb
  have hs : value a * value b ≠ 0 → (sign a != sign b) = decide (value a * value b < 0) := fun h => by
    obtain ⟨h1, h2⟩ := mul_ne_zero_iff.1 h
    rw [sign_eq_decide_value_neg h1, sign_eq_decide_value_neg h2, decide_neg_bne h]
  have h := isRounded_ofMag (d := 2 ^ 149) _ (by decide) hs
  rwa [Int.natAbs_mul, natAbs_value, natAbs_value, ← mul_finite ha hb] at h

/-- Settles O47: the exact quotient is rounded once over the divisor's size, and where it is not zero the exclusive
or of the signs is its sign. -/
theorem quotientsAreCorrectlyRounded : Obligations.QuotientsAreCorrectlyRounded := by
  intro d a b ha hb hz
  have hu : 0 < units (mag b) := by
    rw [Nat.pos_iff_ne_zero, ne_eq, units_eq_zero, ← isZero_iff, hz]
    decide
  have hb0 : value b ≠ 0 := by
    rw [← Int.natAbs_ne_zero, natAbs_value]
    exact hu.ne'
  have hs : value a * 2 ^ 149 * (value b).sign ≠ 0 →
      (sign a != sign b) = decide (value a * 2 ^ 149 * (value b).sign < 0) := fun h => by
    have h1 : value a ≠ 0 := by
      rintro h1
      simp [h1] at h
    have h2 : value a * 2 ^ 149 < 0 ↔ value a < 0 := by omega
    rw [← decide_neg_bne h, sign_eq_decide_value_neg h1, sign_eq_decide_value_neg hb0]
    simp only [h2, Int.sign_neg_iff]
  have h := isRounded_ofMag _ hu hs
  rwa [Int.natAbs_mul, Int.natAbs_mul, Int.natAbs_sign_of_ne_zero hb0, natAbs_value, Nat.mul_one,
    show ((2 : Int) ^ 149).natAbs = 2 ^ 149 from rfl, ← div_finite ha hb hz, ← natAbs_value] at h

/-! ### `fp(n)` -/

/-- An integer below 2^24 is the size of a finite value: shifted up to a 24-bit significand, it has a quantum of
2^126 units or more. -/
theorem exists_units_eq_natCast {n : Nat} (hn : n < 2 ^ 24) :
    ∃ m < infMag, units m = n * 2 ^ 149 := by
  rcases Nat.eq_zero_or_pos n with rfl | hpos
  · exact ⟨0, by decide, by simp⟩
  · have hlog : Nat.log 2 n < 24 := Nat.log_lt_of_lt_pow hpos.ne' hn
    obtain ⟨j, hj⟩ : ∃ j, Nat.log 2 n + j = 23 := ⟨23 - Nat.log 2 n, by omega⟩
    have hlo : 2 ^ 23 ≤ n * 2 ^ j := by
      rw [← hj, pow_add]
      exact Nat.mul_le_mul_right _ (Nat.pow_log_le_self 2 hpos.ne')
    have hhi : n * 2 ^ j < 2 ^ 24 := by
      rw [show 24 = Nat.log 2 n + 1 + j by omega, pow_add]
      exact Nat.mul_lt_mul_of_pos_right (Nat.lt_pow_succ_log_self one_lt_two n) (by positivity)
    refine ⟨(149 - j) * 2 ^ 23 + n * 2 ^ j, by rw [infMag_eq]; omega, ?_⟩
    rw [units_significand hhi.le (.inr hlo), Nat.mul_assoc, ← pow_add, show j + (149 - j) = 149 by omega]

/-- Settles O49: `n` is the size of a finite value, and rounding keeps such a size. -/
theorem smallIntegersConvertExactly : Obligations.SmallIntegersConvertExactly := by
  intro n hn
  obtain ⟨m, hm, hu⟩ := exists_units_eq_natCast hn
  have hr : roundMag (n * 2 ^ 149) 1 = m := by
    rw [← hu]
    simpa using roundMag_units one_pos hm.le
  rw [infMag_eq] at hm
  rw [ofNat, hr, isFinite_iff_lt, mag_ofMag _ _ (by omega), value_ofMag _ (by omega), hu]
  exact ⟨hm, by simp⟩

/-! ### The configuration functions (R12) -/

/-- A value replaced by 1.0 where it would break a property that 1.0 has: the result has it. -/
theorem replaced_has_property {P : F32 → Bool} (h1 : P k1 = true) {inRange : Bool} (hr : inRange = true)
    (y : F32) : P (if inRange && !P y then k1 else y) = true := by
  subst hr
  cases hy : P y <;> simp [h1, hy]

theorem withinOne_sin {x : F32} (hx : isFinite x = true) : withinOne (Config.sin x) = true := by
  unfold Config.sin
  split
  · decide
  · exact replaced_has_property (by decide) hx _

theorem withinOne_cos {x : F32} (hx : isFinite x = true) : withinOne (Config.cos x) = true :=
  replaced_has_property (by decide) hx _

theorem isPositive_exp {x : F32} (hx : expArgInRange x = true) : isPositive (Config.exp x) = true := by
  unfold Config.exp
  split
  · decide
  · exact replaced_has_property (by decide) hx _

theorem nearTwo_pow2_k1 : nearTwo (Config.pow2 k1) = true := by
  have h10 : k1 ≠ k0 := by decide
  rw [Config.pow2, if_neg h10, if_pos rfl]
  split
  · assumption
  · decide

/-- Settles O50: each property holds where the function's value was replaced, and where it was not because it had
the property. -/
theorem configurationHasTheProperties : Obligations.ConfigurationHasTheProperties where
  left :=
    { p1 := show Config.sin k0 = k0 from if_pos rfl
      p2 := show Config.pow2 k0 = k1 from if_pos rfl
      p3 := nearTwo_pow2_k1
      p5 := show Config.exp k0 = k1 from if_pos rfl
      p6sin := fun _ => withinOne_sin
      p6cos := fun _ => withinOne_cos
      p6exp := fun _ => isPositive_exp }
  right := ⟨by decide, by decide, by decide⟩

/-! ### Infinities and zeros -/

theorem add_isInf_left {d a b : F32} (ha : isInf a = true) (h : isNaN (add d a b) = false) :
    add d a b = a := by
  rw [add] at h ⊢
  split_ifs at h ⊢ with hnan hopposite
  · simp at h
  · simp at h
  · rfl

/-- Where both operands are infinite, they are the same infinity, or the sum is a NaN. -/
theorem add_isInf_right {d a b : F32} (hb : isInf b = true) (h : isNaN (add d a b) = false) :
    add d a b = b := by
  rw [add] at h ⊢
  split_ifs at h ⊢ with hnan ha hopposite
  · simp at h
  · simp at h
  · exact eq_of_mag_sign (((isInf_iff a).1 ha).trans ((isInf_iff b).1 hb).symm) (by simpa [hb] using hopposite)
  · rfl

theorem sub_isInf_left {d a b : F32} (ha : isInf a = true) (h : isNaN (sub d a b) = false) :
    sub d a b = a := by
  rw [sub] at h ⊢
  exact add_isInf_left ha h

@[simp] theorem isInf_neg (a : F32) : isInf (neg a) = isInf a := by simp [isInf]

theorem sub_isInf_right {d a b : F32} (hb : isInf b = true) (h : isNaN (sub d a b) = false) :
    sub d a b = neg b := by
  rw [sub] at h ⊢
  exact add_isInf_right ((isInf_neg b).trans hb) h

/-- An exactly zero sum: -0 only where both terms are negative zeros. -/
theorem add_eq_zero {a b : F32} (d : F32) (ha : isFinite a = true) (hb : isFinite b = true)
    (hz : value a + value b = 0) :
    add d a b = if sign a = true ∧ sign b = true then 0x80000000 else 0 := by
  rw [add_cancel ha hb hz]
  cases sign a <;> cases sign b <;> decide

theorem sub_eq_zero_of_value_eq {a b : F32} (d : F32) (ha : isFinite a = true) (hb : isFinite b = true)
    (he : value a = value b) :
    sub d a b = if sign a = true ∧ sign b = false then 0x80000000 else 0 := by
  rw [sub, add_eq_zero d ha ((isFinite_neg b).trans hb) (by rw [value_neg, he, Int.add_right_neg])]
  simp

theorem roundMag_lt (n d : Nat) : roundMag n d < 2 ^ 31 := (roundMag_le n d).trans_lt (by decide)

@[simp] theorem isInf_ofMag_infMag (s : Bool) : isInf (ofMag s infMag) = true := by cases s <;> decide

@[simp] theorem isZero_ofMag_zero (s : Bool) : isZero (ofMag s 0) = true := by cases s <;> decide

theorem isZero_eq_false_of_isInf {a : F32} (h : isInf a = true) : isZero a = false := by
  rw [isInf_iff] at h
  simp [isZero, h]

/-- A product that is no NaN has the exclusive or of the signs, and is infinite with an infinite factor. -/
theorem mul_of_not_isNaN {d a b : F32} (h : isNaN (mul d a b) = false) :
    sign (mul d a b) = (sign a != sign b) ∧
      (isInf a = true ∨ isInf b = true → isInf (mul d a b) = true) := by
  rw [mul] at h ⊢
  split_ifs at h ⊢ with hnan hinvalid hinf
  · simp at h
  · simp at h
  · exact ⟨sign_ofMag _ _ (by decide), fun _ => isInf_ofMag_infMag _⟩
  · exact ⟨sign_ofMag _ _ (roundMag_lt _ _), fun hi => absurd (by simpa using hi) hinf⟩

/-- A quotient that is no NaN has the exclusive or of the signs, is infinite with an infinite dividend or a zero
divisor, and is a zero with an infinite divisor. -/
theorem div_of_not_isNaN {d a b : F32} (h : isNaN (div d a b) = false) :
    sign (div d a b) = (sign a != sign b) ∧
      (isInf a = true ∨ isZero b = true → isInf (div d a b) = true) ∧
      (isInf b = true → isZero (div d a b) = true) := by
  rw [div] at h ⊢
  split_ifs at h ⊢ with hnan hinvalid hinf hzero
  · simp at h
  · simp at h
  · refine ⟨sign_ofMag _ _ (by decide), fun _ => isInf_ofMag_infMag _, fun hb => ?_⟩
    have hbz := isZero_eq_false_of_isInf hb
    have ha : isInf a = false := by simpa [hb, hbz] using hinvalid
    simp [ha, hbz] at hinf
  · exact ⟨sign_ofMag _ _ (by decide), fun hi => absurd (by simpa using hi) hinf,
      fun _ => isZero_ofMag_zero _⟩
  · exact ⟨sign_ofMag _ _ (roundMag_lt _ _), fun hi => absurd (by simpa using hi) hinf,
      fun hb => absurd hb hzero⟩

/-- Settles O59: each clause is the branch of its operation for those operands. -/
theorem infinitiesAndZerosFollowIeee754 : Obligations.InfinitiesAndZerosFollowIeee754 := fun d _ _ =>
  ⟨add_isInf_left, add_isInf_right, sub_isInf_left, sub_isInf_right, add_eq_zero d,
    sub_eq_zero_of_value_eq d, mul_of_not_isNaN, div_of_not_isNaN⟩

end Sys2Proof.Proofs
end

section
/-! PROOFS. The arithmetic that the invariants of spec 10_state.md rest on: the operations on values that are not
negative as roundings of exact sizes, `T + DT` (R23), and the envelope's step with the gate at 1.0 (R67). -/

namespace Sys2Proof.Proofs

open Sys2Proof.Fp Sys2Proof.Machine Sys2Proof.Laws Sys2Proof.Safety

/-! ### The operations on finite values that are not negative -/

section
variable {a b : F32}

theorem mag_eq_toNat (h : a.toNat < infMag) : mag a = a.toNat :=
  Nat.mod_eq_of_lt (h.trans (by decide))

theorem sign_eq_false (h : a.toNat < infMag) : sign a = false := by
  rw [infMag_eq] at h
  exact decide_eq_false (by omega)

theorem isFinite_of_toNat_lt (h : a.toNat < infMag) : isFinite a = true := by
  rwa [isFinite_iff_lt, mag_eq_toNat h, ← infMag_eq]

theorem value_eq_units (h : a.toNat < infMag) : value a = units a.toNat := by
  rw [value, sign_eq_false h, mag_eq_toNat h, cond_false]

theorem toNat_ofMag_false {m : Nat} (h : m ≤ infMag) : (ofMag false m).toNat = m := by
  rw [toNat_ofMag _ _ (h.trans_lt (by decide))]
  simp

/-- A sum that is exactly a natural number of units, of terms that are not both negative, is that number rounded. -/
theorem toNat_add_of_value {n : Nat} (d : F32) (ha : isFinite a = true) (hb : isFinite b = true)
    (hs : sign a = false) (hv : value a + value b = n) : (add d a b).toNat = roundMag n 1 := by
  rcases Nat.eq_zero_or_pos n with rfl | hn
  · rw [add_cancel ha hb hv, hs, Bool.false_and, toNat_ofMag_false (Nat.zero_le _), roundMag_zero one_pos]
  · rw [add_finite ha hb (by omega), hv, Int.natAbs_natCast, decide_eq_false (by omega),
      toNat_ofMag_false (roundMag_le _ _)]

theorem toNat_add (d : F32) (ha : a.toNat < infMag) (hb : b.toNat < infMag) :
    (add d a b).toNat = roundMag (units a.toNat + units b.toNat) 1 := by
  refine toNat_add_of_value d (isFinite_of_toNat_lt ha) (isFinite_of_toNat_lt hb) (sign_eq_false ha) ?_
  rw [value_eq_units ha, value_eq_units hb, Nat.cast_add]

theorem toNat_sub (d : F32) (ha : a.toNat < infMag) (h : b.toNat ≤ a.toNat) :
    (sub d a b).toNat = roundMag (units a.toNat - units b.toNat) 1 := by
  have hb := h.trans_lt ha
  rw [sub]
  refine toNat_add_of_value d (isFinite_of_toNat_lt ha) ((isFinite_neg b).trans (isFinite_of_toNat_lt hb))
    (sign_eq_false ha) ?_
  rw [value_neg, value_eq_units ha, value_eq_units hb, Nat.cast_sub (units_le_units.2 h), Int.sub_eq_add_neg]

theorem toNat_div (d : F32) (ha : a.toNat < infMag) (hb : b.toNat < infMag) (hb0 : 0 < b.toNat) :
    (div d a b).toNat = roundMag (units a.toNat * 2 ^ 149) (units b.toNat) := by
  have hz : isZero b = false := by
    rw [isZero, mag_eq_toNat hb]
    exact decide_eq_false hb0.ne'
  rw [div_finite (isFinite_of_toNat_lt ha) (isFinite_of_toNat_lt hb) hz, sign_eq_false ha, sign_eq_false hb,
    mag_eq_toNat ha, mag_eq_toNat hb]
  exact toNat_ofMag_false (roundMag_le _ _)

theorem toNat_le_toNat_add (d : F32) (ha : a.toNat < infMag) (hb : b.toNat < infMag) :
    a.toNat ≤ (add d a b).toNat := by
  rw [toNat_add d ha hb]
  exact le_roundMag_of_le one_pos ha.le (by omega)

end

/-! ### `T` (R22, R23) -/

/-- `DT` is less than half a unit in the last place of 512.0, so 512.0 + `DT` rounds back to 512.0. -/
theorem roundMag_freeze_add_dt :
    roundMag (units 0x44000000 + units Config.params.dt.toNat) 1 = 0x44000000 := by
  decide +kernel

/-- Settles O44: a sum with `DT` is not below `T`, and by the order that rounding keeps it is not above 512.0 +
`DT`, which is 512.0. -/
theorem timeNeverFallsAndFreezes : Obligations.TimeNeverFallsAndFreezes := by
  intro d t ht
  have hinf : t.toNat < infMag := ht.trans_lt (by decide)
  have hdt : Config.params.dt.toNat < infMag := by decide +kernel
  have hsum := toNat_add d hinf hdt
  refine ⟨toNat_le_toNat_add d hinf hdt, ?_, ?_⟩
  · rw [hsum, ← roundMag_freeze_add_dt]
    have := units_le_units.2 ht
    exact roundMag_mono one_pos one_pos (by omega)
  · rintro rfl
    exact BitVec.eq_of_toNat_eq (hsum.trans roundMag_freeze_add_dt)

/-! ### Sizes that are kept exactly -/

/-- Twice a size is the size of a value at most one binade above. -/
theorem exists_units_eq_two_mul (m : Nat) : ∃ m' ≤ m + 2 ^ 23, units m' = 2 * units m := by
  rcases Nat.lt_or_ge m (2 ^ 23) with h | h
  · refine ⟨2 * m, by omega, ?_⟩
    have hu := units_significand (k := 0) (c := 2 * m) (by omega) (.inl rfl)
    rw [units_subnormal (by omega : m / 2 ^ 23 = 0)]
    simpa using hu
  · refine ⟨m + 2 ^ 23, le_rfl, ?_⟩
    rw [units_normal (by omega), units_normal (by omega),
      show (m + 2 ^ 23) / 2 ^ 23 - 1 = m / 2 ^ 23 - 1 + 1 by omega,
      show (m + 2 ^ 23) % 2 ^ 23 = m % 2 ^ 23 by omega, pow_succ]
    ring

/-- A significand of 24 bits with any exponent is the size of a value. -/
theorem exists_units_eq_mul_two_pow {n : Nat} (hn : n ≤ 2 ^ 24) (e : Nat) :
    ∃ m ≤ n + e * 2 ^ 23, units m = n * 2 ^ e := by
  induction e with
  | zero => exact ⟨n, by simp, by simpa using units_significand (k := 0) hn (.inl rfl)⟩
  | succ e ih =>
    obtain ⟨m, hm, hu⟩ := ih
    obtain ⟨m', hm', hu'⟩ := exists_units_eq_two_mul m
    exact ⟨m', by omega, by rw [hu', hu, pow_succ]; ring⟩

/-- Rounding keeps a significand of 24 bits. -/
theorem units_roundMag_exact {n e d : Nat} (hn : n ≤ 2 ^ 24) (he : e ≤ 252) (hd : 0 < d) :
    units (roundMag (n * 2 ^ e * d) d) = n * 2 ^ e := by
  obtain ⟨m, hm, hu⟩ := exists_units_eq_mul_two_pow hn e
  have hle : m ≤ infMag := by
    rw [infMag_eq]
    omega
  rw [← hu, roundMag_units hd hle]

/-! ### The envelope's step with the gate at 1.0 (R67) -/

/-- What `ENV_STEP` adds to `AMP`, in the same units, with the gate at 1.0. -/
def envRise (amp : F32) : Nat :=
  units (roundMag (units (roundMag (units k1.toNat - units amp.toNat) 1) * 2 ^ 149) (units kEnvDiv.toNat))

/-- The rise is at most 1/64. -/
theorem envRise_le (amp : F32) : envRise amp ≤ units 0x3C800000 := by
  have hdiff : roundMag (units k1.toNat - units amp.toNat) 1 ≤ k1.toNat :=
    roundMag_le_of_le one_pos (by decide) (by omega)
  refine units_le_units.2 (roundMag_le_of_le (by decide +kernel) (by decide) ?_)
  calc units (roundMag (units k1.toNat - units amp.toNat) 1) * 2 ^ 149
      ≤ units k1.toNat * 2 ^ 149 := Nat.mul_le_mul_right _ (units_le_units.2 hdiff)
    _ = units 0x3C800000 * units kEnvDiv.toNat := by decide +kernel

/-- `ENV_STEP` with the gate at 1.0 adds the rise and rounds once. -/
theorem toNat_envStep_k1 (nan : Draws) {amp : F32} (h : amp.toNat ≤ k1.toNat) :
    (envStep nan amp k1).toNat = roundMag (units amp.toNat + envRise amp) 1 := by
  have h1 : k1.toNat < infMag := by decide
  have hdiff := toNat_sub (nan 0) h1 h
  have hdiff_lt : (sub (nan 0) k1 amp).toNat < infMag := by
    rw [hdiff]
    exact (roundMag_le_of_le one_pos h1.le (by omega)).trans_lt h1
  have hquot := toNat_div (nan 1) hdiff_lt (b := kEnvDiv) (by decide) (by decide)
  have hrise : units (div (nan 1) (sub (nan 0) k1 amp) kEnvDiv).toNat = envRise amp := by
    rw [hquot, hdiff, envRise]
  have hquot_lt : (div (nan 1) (sub (nan 0) k1 amp) kEnvDiv).toNat < infMag := by
    have := units_le_units.1 (hrise.trans_le (envRise_le amp))
    exact this.trans_lt (by decide)
  rw [envStep, toNat_add _ (h.trans_lt h1) hquot_lt, hrise]

/-- From 0.5 on, `AMP` is a whole number of 2^-24, 1.0 less `k` of them. -/
theorem units_one_sub {k : Nat} (hk : k ≤ 2 ^ 23) : units (k1.toNat - k) = (2 ^ 24 - k) * 2 ^ 125 := by
  rw [← units_significand (by omega) (.inr (by omega))]
  congr 1
  have : k1.toNat = 0x3F800000 := rfl
  omega

/-- There the difference from 1.0 and its 64th part are exact. -/
theorem envRise_one_sub {amp : F32} {k : Nat} (hk : k ≤ 2 ^ 23) (h : amp.toNat = k1.toNat - k) :
    envRise amp = k * 2 ^ 119 := by
  have hdiff : units k1.toNat - units amp.toNat = k * 2 ^ 125 * 1 := by
    have h1 : units k1.toNat = 2 ^ 24 * 2 ^ 125 := by decide +kernel
    rw [h, units_one_sub hk, h1, ← Nat.sub_mul, Nat.mul_one]
    congr 1
    omega
  have h64 : k * 2 ^ 125 * 2 ^ 149 = k * 2 ^ 119 * units kEnvDiv.toNat := by
    rw [show units kEnvDiv.toNat = 2 ^ 155 by decide +kernel, Nat.mul_assoc, Nat.mul_assoc, ← pow_add, ← pow_add]
  rw [envRise, hdiff, units_roundMag_exact (by omega) (by decide) one_pos, h64,
    units_roundMag_exact (by omega) (by decide) (by decide +kernel)]

/-- R67: with the gate at 1.0 the envelope does not fall and does not pass 1 − 2^-19.  There (`k` = 32) the exact sum
is a tie, which goes to the even neighbour, so the envelope stalls; from any value below, the exact sum is not
above 1 − 2^-19. -/
theorem envStep_k1_bounds (nan : Draws) {amp : F32} (h : amp.toNat ≤ 0x3F7FFFE0) :
    amp.toNat ≤ (envStep nan amp k1).toNat ∧ (envStep nan amp k1).toNat ≤ 0x3F7FFFE0 := by
  have h1 : k1.toNat = 0x3F800000 := rfl
  rw [toNat_envStep_k1 nan (by omega)]
  refine ⟨le_roundMag_of_le one_pos (h.trans (by decide)) (by omega), ?_⟩
  rcases Nat.lt_or_ge amp.toNat 0x3F000000 with hlow | hhigh
  · refine roundMag_le_of_le one_pos (by decide) ?_
    calc units amp.toNat + envRise amp
        ≤ units 0x3F000000 + units 0x3C800000 := Nat.add_le_add (units_le_units.2 hlow.le) (envRise_le amp)
      _ ≤ units 0x3F7FFFE0 * 1 := by decide +kernel
  · obtain ⟨k, hk, hk32, hamp⟩ : ∃ k, k ≤ 2 ^ 23 ∧ 32 ≤ k ∧ amp.toNat = k1.toNat - k :=
      ⟨k1.toNat - amp.toNat, by omega, by omega, by omega⟩
    rw [envRise_one_sub hk hamp, hamp, units_one_sub hk]
    rcases hk32.eq_or_lt with rfl | hk33
    · decide +kernel
    · refine roundMag_le_of_le one_pos (by decide) ?_
      rw [show units 0x3F7FFFE0 = (2 ^ 24 - 32) * 2 ^ 125 by decide +kernel]
      omega

end Sys2Proof.Proofs
end

section
/-! PROOFS. The statements of spec 10_state.md: the frames of the commands, what every step keeps of the registers,
`T` and `AMP`, and the registers that never reach the output. -/

namespace Sys2Proof.Proofs

open Sys2Proof.Machine Sys2Proof.Laws Sys2Proof.Safety

/-! ### What a command can do -/

/-- Everything a command can do: each with the named writes of its rule (R57, R59, R60, R61, R87). -/
theorem exec_cases {i : Instr} {s t : State} (h : exec i s = .next t) :
    (i = .nop ∧ t = s) ∨
    (∃ note, i = .noteOn note ∧
      t = ((s.setVoices (s.voices ++ [⟨note, freq Config.params (s.nan Config.params) note⟩])).setGate
        k1).useDraws 3) ∨
    (∃ note, i = .noteOff note ∧ t = (s.setVoices (withoutNote note s.voices)).setGate k1) ∨
    (∃ index value, i = .setCtrl index value ∧ t = s.setCtrl index (controllerValue value)) ∨
    (∃ n, i = .render n ∧
      t = (sampleSteps Config.params n s).handOver (renderFrames Config.params n s).2) := by
  cases i with
  | nop => cases h; simp
  | noteOn note => cases h; simp [noteOn_unbounded]
  | noteOff note => cases h; simp [noteOff]
  | setCtrl index value => cases h; simp [setController]
  | render n => cases h; simp [render_eq]

/-! ### The frames of the commands -/

/-- SET_CTRL leaves every controller but the selected one. -/
theorem setCtrl_other (s : State) (index : Nat) (v : F32) :
    (index ≠ 1 → (s.setCtrl index v).ctrl1 = s.ctrl1) ∧
      (index ≠ 2 → (s.setCtrl index v).ctrl2 = s.ctrl2) ∧
      (index ≠ 3 → (s.setCtrl index v).ctrl3 = s.ctrl3) ∧
      (index ≠ 4 → (s.setCtrl index v).ctrl4 = s.ctrl4) := by
  unfold State.setCtrl
  split <;> simp

/-- Settles O23: the writes of each event command name only the registers its rule names. -/
theorem eventCommandsLeaveTheRest : Obligations.EventCommandsLeaveTheRest := by
  intro i s t hi h
  rcases exec_cases h with ⟨rfl, rfl⟩ | ⟨note, rfl, rfl⟩ | ⟨note, rfl, rfl⟩ |
      ⟨index, value, rfl, rfl⟩ | ⟨n, rfl, -⟩
  · simp
  · simp
  · simp
  · refine ⟨by simp, fun hne => absurd rfl (hne _ _), fun index' value' he => ?_⟩
    obtain ⟨rfl, rfl⟩ := Instr.setCtrl.inj he
    exact ⟨by simp, by simp, by simp, setCtrl_other s index _⟩
  · exact absurd rfl (hi n)

/-- Settles O29: no sample step writes these registers, so no number of them does, and the hand-over adds one block. -/
theorem renderLeavesTheCommandRegisters : Obligations.RenderLeavesTheCommandRegisters := by
  intro n s t h
  cases h
  rw [render_eq]
  have keeps {α : Type} (g : State → α) (hg : ∀ u, g (sampleStep Config.params u) = g u) :
      g (sampleSteps Config.params n s) = g s := sampleSteps_field Config.params hg n s
  exact ⟨keeps State.gate (by simp), keeps State.voices (by simp), keeps State.ctrl1 (by simp),
    keeps State.ctrl2 (by simp), keeps State.ctrl3 (by simp), keeps State.ctrl4 (by simp),
    keeps (fun u => u.filter.resPct) (by simp), keeps State.eventQueue (by simp),
    keeps State.renderQueue (by simp), keeps State.turns (by simp), _,
    congrArg (· ++ [(renderFrames Config.params n s).2]) (keeps State.output (by simp))⟩

/-! ### What the registers hold (R16, R17, R19, R20, R27, R32) -/

theorem sampleStep_registersLegal {s : State} (h : RegistersLegal s) :
    RegistersLegal (sampleStep Config.params s) where
  gate := by simpa using h.gate
  ctrl1 := by simpa using h.ctrl1
  ctrl2 := by simpa using h.ctrl2
  ctrl3 := by simpa using h.ctrl3
  ctrl4 := by simpa using h.ctrl4
  voices := by simpa using h.voices
  q := by simp [kQ, k1]
  resPct := by simpa using h.resPct
  output := by simpa using h.output

/-- A block is whole frames, so a legal output with it handed over is one. -/
theorem handOver_registersLegal {s : State} (h : RegistersLegal s) {b : List F32}
    (hb : b.length % Config.params.channels = 0) : RegistersLegal (s.handOver b) :=
  { h with
    output := by
      intro b' hb'
      rcases List.mem_append.1 hb' with hold | hnew
      · exact h.output b' hold
      · rwa [List.mem_singleton.1 hnew] }

theorem setCtrl_registersLegal {s : State} (h : RegistersLegal s) (index : Nat) {v : F32}
    (hv : IsControllerValue v) : RegistersLegal (s.setCtrl index v) := by
  rcases setCtrl_cases s index v with e | e | e | e | e <;> rw [e]
  · exact { h with ctrl1 := hv }
  · exact { h with ctrl2 := hv }
  · exact { h with ctrl3 := hv }
  · exact { h with ctrl4 := hv }
  · exact h

theorem exec_registersLegal (i : Instr) (s t : State) (hi : i.WellFormed = true) (h : RegistersLegal s)
    (hx : exec i s = .next t) : RegistersLegal t := by
  rcases exec_cases hx with ⟨rfl, rfl⟩ | ⟨note, rfl, rfl⟩ | ⟨note, rfl, rfl⟩ |
      ⟨index, value, rfl, rfl⟩ | ⟨n, rfl, rfl⟩
  · exact h
  · refine { h with gate := .inr rfl, voices := fun v hv => ?_ }
    rcases List.mem_append.1 hv with hold | hnew
    · exact h.voices v hold
    · obtain rfl := List.mem_singleton.1 hnew
      exact ⟨by simpa using hi, _, rfl⟩
  · exact { h with gate := .inr rfl, voices := fun v hv => h.voices v (mem_withoutNote.1 hv).1 }
  · have hvalue : index < 256 ∧ value < 128 := by simpa using hi
    exact setCtrl_registersLegal h index ⟨value, hvalue.2, rfl⟩
  · have hsteps : RegistersLegal (sampleSteps Config.params n s) :=
      sampleSteps_keep _ (P := RegistersLegal) (fun _ => sampleStep_registersLegal) n h
    exact handOver_registersLegal hsteps (by rw [renderFrames_length, Nat.mul_mod_right])

/-- Settles O53: the invariant does not read the queues, and every well-formed command keeps it. -/
theorem stepKeepsRegistersLegal : Obligations.StepKeepsRegistersLegal := fun _ _ hs hx =>
  step_keeps (fun _ _ _ _ h => { h with }) exec_registersLegal hs hx

/-! ### `T` and `AMP` (R16, R22, R23, R67) -/

/-- Between sample steps, `AMP` and `T` are held, and `GATE` is only ever set to 1.0: an invariant of the three is one
that such writes and a sample step keep. -/
theorem step_keeps_amp_t_gate {P : State → Prop}
    (hheld : ∀ s t, t.amp = s.amp → t.t = s.t → t.gate = s.gate ∨ t.gate = k1 → P s → P t)
    (hsample : ∀ s, P s → P (sampleStep Config.params s))
    {s t : State} (hs : P s) (h : step s = .next t) : P t := by
  refine step_keeps (fun s es rs k => hheld s _ rfl rfl (.inl rfl)) (fun i s t _ hs hx => ?_) hs h
  rcases exec_cases hx with ⟨-, rfl⟩ | ⟨note, -, rfl⟩ | ⟨note, -, rfl⟩ |
      ⟨index, value, -, rfl⟩ | ⟨n, -, rfl⟩
  · exact hs
  · exact hheld s _ rfl rfl (.inr rfl) hs
  · exact hheld s _ rfl rfl (.inr rfl) hs
  · exact hheld s _ (by simp) (by simp) (by simp) hs
  · exact hheld (sampleSteps Config.params n s) _ rfl rfl (.inl rfl)
      (sampleSteps_keep Config.params hsample n hs)

/-- `T` is in [0, 512] and at least the value whose bits are `low`. -/
structure TimeFrom (low : Nat) (s : State) : Prop where
  legal : TimeLegal s
  low_le : low ≤ s.t.toNat

theorem sampleStep_timeFrom {low : Nat} {s : State} (h : TimeFrom low s) :
    TimeFrom low (sampleStep Config.params s) := by
  obtain ⟨d, hd⟩ := sampleStep_t Config.params s
  obtain ⟨hle, hfreeze, -⟩ := timeNeverFallsAndFreezes d s.t h.legal
  rw [← hd] at hle hfreeze
  exact ⟨hfreeze, h.low_le.trans hle⟩

theorem timeFrom_of_t_eq {low : Nat} {s t : State} (h : TimeFrom low s) (ht : t.t = s.t) : TimeFrom low t :=
  ⟨by simpa [TimeLegal, ht] using h.legal, ht ▸ h.low_le⟩

/-- Settles O54: `T` at least its value before the step is an invariant of the sample step, by O44. -/
theorem stepKeepsTimeLegal : Obligations.StepKeepsTimeLegal := by
  intro s t hs hx
  have h : TimeFrom s.t.toNat t :=
    step_keeps_amp_t_gate (fun _ _ _ ht _ h => timeFrom_of_t_eq h ht) (fun _ => sampleStep_timeFrom)
      ⟨hs, le_rfl⟩ hx
  exact ⟨h.legal, h.low_le⟩

/-- `GATE` is 1.0 and `AMP` is between the value whose bits are `low` and 1 − 2^-19. -/
structure OpenFrom (low : Nat) (s : State) : Prop where
  gate : s.gate = k1
  low_le : low ≤ s.amp.toNat
  le_stall : s.amp.toNat ≤ 0x3F7FFFE0

theorem sampleStep_openFrom {low : Nat} {s : State} (h : OpenFrom low s) :
    OpenFrom low (sampleStep Config.params s) := by
  obtain ⟨nan, hamp⟩ := sampleStep_amp Config.params s
  obtain ⟨hle, hstall⟩ := envStep_k1_bounds nan h.le_stall
  rw [← h.gate, ← hamp] at hle hstall
  exact ⟨by simpa using h.gate, h.low_le.trans hle, hstall⟩

theorem openFrom_of_held {low : Nat} {s t : State} (h : OpenFrom low s) (hamp : t.amp = s.amp)
    (hgate : t.gate = s.gate ∨ t.gate = k1) : OpenFrom low t :=
  ⟨hgate.elim (·.trans h.gate) id, hamp ▸ h.low_le, hamp ▸ h.le_stall⟩

/-- Settles O56: an open gate with `AMP` at least its value before the step is an invariant of the sample step. -/
theorem gateAndEnvelopeNeverFall : Obligations.GateAndEnvelopeNeverFall := by
  intro s t hgate hamp hx
  have h : OpenFrom s.amp.toNat t :=
    step_keeps_amp_t_gate (fun _ _ hamp _ hgate h => openFrom_of_held h hamp hgate)
      (fun _ => sampleStep_openFrom) ⟨hgate, le_rfl, hamp⟩ hx
  exact ⟨h.gate, h.low_le, h.le_stall⟩

/-! ### The registers that never reach the output (R18, R21, R26, R27) -/

/-- `COEF` reads no filter register that it has not written itself, so on equal delay lines it leaves equal filter
registers, but for `RES_PCT` and `Y0`, which it keeps. -/
theorem coef_eq_of_same_delays (p : Params) (nan : Draws) (cutoff : F32) {f f' : FilterState}
    (hx1 : f.x1 = f'.x1) (hx2 : f.x2 = f'.x2) (hy1 : f.y1 = f'.y1) (hy2 : f.y2 = f'.y2) :
    coef p nan cutoff f = { coef p nan cutoff f' with resPct := f.resPct, y0 := f.y0 } := by
  simp [coef, hx1, hx2, hy1, hy2]

/-- `BIQUAD` reads neither `RES_PCT` nor `Y0`, and overwrites `Y0`. -/
theorem biquad_unread (nan : Draws) (x0 r y : F32) (f : FilterState) :
    biquad nan x0 { f with resPct := r, y0 := y } = { biquad nan x0 f with resPct := r } := rfl

section
variable {s s' : State}

theorem nan_eq_of_sameToHost (h : SameToHost s s') (p : Params) : s.nan p = s'.nan p := by
  rw [State.nan, State.nan, h.draws]

/-- A sample step in states the host cannot tell apart leaves the same filter registers, but for `RES_PCT`. -/
theorem sampleFilter_eq_of_sameToHost (h : SameToHost s s') (p : Params) :
    sampleFilter p s = { sampleFilter p s' with resPct := s.filter.resPct } := by
  have hsignal : sampleSignal p s = sampleSignal p s' := by
    rw [sampleSignal, sampleSignal, nan_eq_of_sameToHost h, h.voices, h.amp, h.t]
  have hcutoff : sampleCutoff p s = sampleCutoff p s' := by
    rw [sampleCutoff, sampleCutoff, nan_eq_of_sameToHost h, h.voices, h.ctrl1, h.ctrl2, h.t]
  rw [sampleFilter, coef_eq_of_same_delays _ _ _ h.x1 h.x2 h.y1 h.y2, biquad_unread, hsignal, hcutoff,
    nan_eq_of_sameToHost h, h.voices]
  rfl

theorem sampleFilter_y0_of_sameToHost (h : SameToHost s s') (p : Params) :
    (sampleFilter p s).y0 = (sampleFilter p s').y0 := by
  rw [sampleFilter_eq_of_sameToHost h]

theorem sameToHost_sampleStep (h : SameToHost s s') (p : Params) :
    SameToHost (sampleStep p s) (sampleStep p s') where
  amp := by simp [sampleStep, nan_eq_of_sameToHost h, h.voices, h.amp, h.gate]
  gate := by simpa using h.gate
  ctrl1 := by simpa using h.ctrl1
  ctrl2 := by simpa using h.ctrl2
  voices := by simpa using h.voices
  t := by simp [sampleStep, nan_eq_of_sameToHost h, h.voices, h.t]
  x1 := by rw [sampleStep_filter, sampleStep_filter, sampleFilter_eq_of_sameToHost h]
  x2 := by rw [sampleStep_filter, sampleStep_filter, sampleFilter_eq_of_sameToHost h]
  y1 := by rw [sampleStep_filter, sampleStep_filter, sampleFilter_eq_of_sameToHost h]
  y2 := by rw [sampleStep_filter, sampleStep_filter, sampleFilter_eq_of_sameToHost h]
  eventQueue := by simpa using h.eventQueue
  renderQueue := by simpa using h.renderQueue
  output := by simpa using h.output
  draws := by simp [h.draws, h.voices]
  turns := by simpa using h.turns

theorem sameToHost_sampleSteps (h : SameToHost s s') (p : Params) (n : Nat) :
    SameToHost (sampleSteps p n s) (sampleSteps p n s') := by
  induction n generalizing s s' with
  | zero => exact h
  | succ n ih => exact ih (sameToHost_sampleStep h p)

/-- The block of a RENDER is the same: its frames are the values `Y0` that the sample steps leave. -/
theorem renderFrames_block_of_sameToHost (h : SameToHost s s') (p : Params) (n : Nat) :
    (renderFrames p n s).2 = (renderFrames p n s').2 := by
  induction n generalizing s s' with
  | zero => rfl
  | succ n ih =>
    simp only [renderFrames_succ, sampleStep_filter]
    rw [ih (sameToHost_sampleStep h p), sampleFilter_y0_of_sameToHost h]

theorem sameToHost_setCtrl (h : SameToHost s s') (index : Nat) (v : F32) :
    SameToHost (s.setCtrl index v) (s'.setCtrl index v) := by
  unfold State.setCtrl
  split
  · exact { h with ctrl1 := rfl }
  · exact { h with ctrl2 := rfl }
  · exact { h with }
  · exact { h with }
  · exact h

theorem sameToHost_noteOn (h : SameToHost s s') (note : Nat) :
    SameToHost (noteOn Config.params note s) (noteOn Config.params note s') := by
  simp only [noteOn_unbounded]
  exact { h with
    gate := by simp
    voices := by simp [h.voices, nan_eq_of_sameToHost h]
    draws := congrArg (· + 3) h.draws }

theorem sameToHost_noteOff (h : SameToHost s s') (note : Nat) :
    SameToHost (noteOff note s) (noteOff note s') :=
  { h with
    gate := rfl
    voices := congrArg (withoutNote note) h.voices }

theorem sameToHost_render (h : SameToHost s s') (n : Nat) :
    SameToHost (render Config.params n s) (render Config.params n s') := by
  have hs := sameToHost_sampleSteps h Config.params n
  rw [render_eq, render_eq]
  exact { hs with
    output := by
      rw [handOver_output, handOver_output, hs.output, renderFrames_block_of_sameToHost h] }

theorem sameToHost_exec (h : SameToHost s s') {i : Instr} {t : State} (hx : exec i s = .next t) :
    ∃ t', exec i s' = .next t' ∧ SameToHost t t' := by
  cases i with
  | nop => cases hx; exact ⟨_, rfl, h⟩
  | noteOn note => cases hx; exact ⟨_, rfl, sameToHost_noteOn h note⟩
  | noteOff note => cases hx; exact ⟨_, rfl, sameToHost_noteOff h note⟩
  | setCtrl index value => cases hx; exact ⟨_, rfl, sameToHost_setCtrl h index _⟩
  | render n => cases hx; exact ⟨_, rfl, sameToHost_render h n⟩

theorem sameToHost_setQueues (h : SameToHost s s') (es rs : List Word) (k : Nat) :
    SameToHost (s.setQueues es rs k) (s'.setQueues es rs k) :=
  { h with eventQueue := rfl, renderQueue := rfl, turns := rfl }

/-- The same word is taken from the same words waiting. -/
theorem takeWord_of_sameToHost (h : SameToHost s s') (pick : Nat → Bool) :
    (takeWord pick s = none ∧ takeWord pick s' = none) ∨
    ∃ w u u', takeWord pick s = some (w, u) ∧ takeWord pick s' = some (w, u') ∧ SameToHost u u' := by
  unfold takeWord
  rw [← h.eventQueue, ← h.renderQueue, ← h.turns]
  split
  · exact .inl ⟨rfl, rfl⟩
  · exact .inr ⟨_, _, _, rfl, rfl, sameToHost_setQueues h _ _ _⟩
  · exact .inr ⟨_, _, _, rfl, rfl, sameToHost_setQueues h _ _ _⟩
  · split
    · exact .inr ⟨_, _, _, rfl, rfl, sameToHost_setQueues h _ _ _⟩
    · exact .inr ⟨_, _, _, rfl, rfl, sameToHost_setQueues h _ _ _⟩

end

/-- Settles O58: both states take the same word, and every command keeps them the same to the host. -/
theorem unreadRegistersNeverReachTheOutput : Obligations.UnreadRegistersNeverReachTheOutput := by
  intro s s' t h hx
  unfold step at hx ⊢
  rcases takeWord_of_sameToHost h Config.eventFirst with ⟨e, e'⟩ | ⟨w, u, u', e, e', hu⟩
  · rw [e] at hx
    rw [e']
    cases hx
    exact ⟨s', rfl, h⟩
  · rw [e] at hx
    rw [e']
    cases hd : decode w with
    | ok i =>
      simp only [hd] at hx ⊢
      exact sameToHost_exec hu hx
    | error r =>
      simp only [hd] at hx ⊢
      cases hx
      exact ⟨u', rfl, hu⟩

end Sys2Proof.Proofs
end

section
/-! PROOFS. The statements of spec 20_memory.md: the byte transport, the layout of an output block, the step as the
execution of one word, the orders in which the two agents' words are taken, and the run of those words. -/

namespace Sys2Proof.Proofs

open Sys2Proof.Machine Sys2Proof.Laws Sys2Proof.Safety

/-! ### The byte transport (R34) -/

theorem wordsOfBytes_bytesOfWord_append (w : Word) (rest : List Byte) :
    wordsOfBytes (bytesOfWord w ++ rest) = (w :: (wordsOfBytes rest).1, (wordsOfBytes rest).2) := by
  simp [bytesOfWord, wordsOfBytes, wordOfBytes_bytesOfWord]

theorem wordsOfBytes_flatMap_bytesOfWord (ws : List Word) :
    wordsOfBytes (ws.flatMap bytesOfWord) = (ws, []) := by
  induction ws with
  | nil => rfl
  | cons w ws ih => rw [List.flatMap_cons, wordsOfBytes_bytesOfWord_append, ih]

theorem decodeBytes_bytesOfWord_append (w : Word) (rest : List Byte) :
    decodeBytes (bytesOfWord w ++ rest) = some (decode w, rest) := by
  simp [bytesOfWord, decodeBytes, wordOfBytes_bytesOfWord]

/-- A field of eight bits is kept whole in a byte. -/
theorem toNat_bytesOfWord (w : Word) :
    (bytesOfWord w).map BitVec.toNat = [field w 31 24, field w 23 16, field w 15 8, field w 7 0] := by
  have h3 := field_lt w 31 24
  have h2 := field_lt w 23 16
  have h1 := field_lt w 15 8
  have h0 := field_lt w 7 0
  simpa [bytesOfWord] using ⟨h3, h2, h1, h0⟩

/-- Settles O6: four bytes carry one word, so the words are read back one by one. -/
theorem byteTransportCarriesTheWords : Obligations.ByteTransportCarriesTheWords :=
  ⟨wordsOfBytes_flatMap_bytesOfWord, decodeBytes_bytesOfWord_append, toNat_bytesOfWord⟩

/-! ### The layout of an output block (R32) -/

/-- Position `k` lies in the first frame, or `C` positions before it is a position of the frames after that one. -/
theorem renderFrames_getElem? (p : Params) {n k : Nat} (s : State) (hk : k < p.channels * n) :
    (renderFrames p n s).2[k]? = some (sampleSteps p (k / p.channels + 1) s).filter.y0 := by
  induction n generalizing s k with
  | zero => simp at hk
  | succ n ih =>
    rw [renderFrames_succ]
    by_cases hfirst : k < p.channels
    · rw [List.getElem?_append_left (by simpa using hfirst), Nat.div_eq_of_lt hfirst]
      simp [frame, hfirst, sampleSteps]
    · have hle : p.channels ≤ k := Nat.le_of_not_lt hfirst
      have hC : 0 < p.channels := Nat.pos_of_mul_pos_right (Nat.zero_lt_of_lt hk)
      have hrest : k - p.channels < p.channels * n := by rw [Nat.mul_succ] at hk; omega
      rw [List.getElem?_append_right (by simpa using hle), frame_length, ih _ hrest,
        Nat.div_eq_sub_div hC hle]
      rfl

/-- Settles O27: no sample step touches the output, so RENDER adds just the block of its frames. -/
theorem outputBlockIsInterleavedFrames : Obligations.OutputBlockIsInterleavedFrames := by
  intro p n s
  refine ⟨(renderFrames p n s).2, ?_, renderFrames_length p s n, fun k hk => renderFrames_getElem? p s hk⟩
  rw [render_eq, handOver_output, sampleSteps_field p (g := State.output) (sampleStep_output p)]

/-! ### The step as the execution of one word (R35, R62) -/

/-- What the block does with a word that it has taken: its command, or nothing where it is ignored. -/
def execWord (w : Word) (s : State) : Host.Outcome State Fault Refusal :=
  match decode w with
  | .ok i => exec i s
  | .error _ => execIgnored s

theorem execWord_of_decode {w : Word} {i : Instr} (h : decode w = .ok i) (s : State) :
    execWord w s = exec i s := by
  simp [execWord, h]

theorem execWord_ignored {w : Word} {r : Ignored} (h : decode w = .error r) (s : State) :
    execWord w s = .next s := by
  simp [execWord, h, execIgnored]

theorem execWord_next (w : Word) (s : State) : ∃ t, execWord w s = .next t := by
  cases h : decode w with
  | ok i => exact execWord_of_decode h s ▸ exec_next i s
  | error r => exact ⟨s, execWord_ignored h s⟩

/-- No word changes the words waiting behind it. -/
theorem execWord_queues {w : Word} {s t : State} (h : execWord w s = .next t) :
    t.eventQueue = s.eventQueue ∧ t.renderQueue = s.renderQueue ∧ t.turns = s.turns := by
  cases hd : decode w with
  | ok i => exact exec_queues (execWord_of_decode hd s ▸ h)
  | error r =>
    rw [execWord_ignored hd] at h
    cases h
    exact ⟨rfl, rfl, rfl⟩

theorem step_of_takeWord_none {s : State} (h : takeWord Config.eventFirst s = none) : step s = .next s := by
  simp [step, h]

theorem step_of_takeWord {s s' : State} {w : Word} (h : takeWord Config.eventFirst s = some (w, s')) :
    step s = execWord w s' := by
  simp only [step, h]
  rfl

theorem runSteps_succ {s t : State} (h : step s = .next t) (k : Nat) :
    runSteps (k + 1) s = runSteps k t := by
  have hcore : core.step s = .next t := h
  simp only [runSteps, Host.Core.run, hcore]
  rfl

theorem runWords_cons {w : Word} {s t : State} (h : execWord w s = .next t) (ws : List Word) :
    runWords (w :: ws) s = runWords ws t := by
  cases hd : decode w with
  | ok i =>
    rw [execWord_of_decode hd] at h
    simp only [runWords, hd, h]
  | error r =>
    rw [execWord_ignored hd] at h
    cases h
    simp only [runWords, hd, execIgnored]

/-! ### The word taken, by which queues are empty (R38, R39) -/

section
variable {s : State} {e r : Word} {es rs : List Word}

theorem takeWord_event (pick : Nat → Bool) (he : s.eventQueue = e :: es) (hr : s.renderQueue = []) :
    takeWord pick s = some (e, s.setQueues es [] s.turns) := by
  simp [takeWord, he, hr]

theorem takeWord_render (pick : Nat → Bool) (he : s.eventQueue = []) (hr : s.renderQueue = r :: rs) :
    takeWord pick s = some (r, s.setQueues [] rs s.turns) := by
  simp [takeWord, he, hr]

theorem takeWord_event_first {pick : Nat → Bool} (he : s.eventQueue = e :: es)
    (hr : s.renderQueue = r :: rs) (hp : pick s.turns = true) :
    takeWord pick s = some (e, s.setQueues es (r :: rs) (s.turns + 1)) := by
  simp [takeWord, he, hr, hp]

theorem takeWord_render_first {pick : Nat → Bool} (he : s.eventQueue = e :: es)
    (hr : s.renderQueue = r :: rs) (hp : pick s.turns = false) :
    takeWord pick s = some (r, s.setQueues (e :: es) rs (s.turns + 1)) := by
  simp [takeWord, he, hr, hp]

end

/-- Settles O8: the word that the queues and the free choice give is executed as its command. -/
theorem stepRunsTheDecodedCommand : Obligations.StepRunsTheDecodedCommand := by
  intro s w i hi
  refine ⟨fun es he hr => ?_, fun rs he hr => ?_, fun es r rs j he hr hj => ?_⟩
  · rw [step_of_takeWord (takeWord_event _ he hr), execWord_of_decode hi]
  · rw [step_of_takeWord (takeWord_render _ he hr), execWord_of_decode hi]
  · split
    · next hp => rw [step_of_takeWord (takeWord_event_first he hr hp), execWord_of_decode hi]
    · next hp =>
      rw [step_of_takeWord (takeWord_render_first he hr (Bool.eq_false_of_not_eq_true hp)),
        execWord_of_decode hj]

/-! ### The words taken are an interleaving (R38) -/

theorem wordsTaken_of_takeWord_none {pick : Nat → Bool} {s : State} (h : takeWord pick s = none) (k : Nat) :
    wordsTaken pick k s = [] := by
  cases k <;> simp [wordsTaken, h]

theorem wordsTaken_succ {pick : Nat → Bool} {s s' : State} {w : Word} (h : takeWord pick s = some (w, s'))
    (k : Nat) : wordsTaken pick (k + 1) s = w :: wordsTaken pick k s' := by
  simp [wordsTaken, h]

theorem waiting_eq_zero {s : State} : waiting s = 0 ↔ s.eventQueue = [] ∧ s.renderQueue = [] := by
  simp [waiting]

/-- Enough steps take the words waiting in an interleaving of the two queues. -/
theorem interleaving_wordsTaken (pick : Nat → Bool) {k : Nat} {s : State} (hk : waiting s ≤ k) :
    Interleaving s.eventQueue s.renderQueue (wordsTaken pick k s) := by
  induction k generalizing s with
  | zero =>
    obtain ⟨he, hr⟩ := waiting_eq_zero.1 (Nat.le_zero.1 hk)
    rw [he, hr]
    exact .done
  | succ k ih =>
    cases h : takeWord pick s with
    | none =>
      obtain ⟨he, hr⟩ := takeWord_eq_none.1 h
      rw [wordsTaken_of_takeWord_none h, he, hr]
      exact .done
    | some taken =>
      obtain ⟨w, s'⟩ := taken
      have hrest := ih (s := s') (by have := waiting_takeWord h; omega)
      rw [wordsTaken_succ h]
      rcases (takeWord_cases h).1 with ⟨he, hr⟩ | ⟨hr, he⟩
      · rw [he, ← hr]
        exact .event hrest
      · rw [hr, ← he]
        exact .render hrest

/-- Settles O13: as many steps as words waiting are enough. -/
theorem wordsAreTakenInAnInterleaving : Obligations.WordsAreTakenInAnInterleaving :=
  fun pick _ => interleaving_wordsTaken pick le_rfl

/-! ### Every interleaving is taken under some choices (R39) -/

theorem interleaving_length {es rs ws : List Word} (h : Interleaving es rs ws) :
    ws.length = es.length + rs.length := by
  induction h with
  | done => rfl
  | event _ ih => simp only [List.length_cons]; omega
  | render _ ih => simp only [List.length_cons]; omega

theorem turns_le_of_takeWord {pick : Nat → Bool} {s s' : State} {w : Word}
    (h : takeWord pick s = some (w, s')) : s.turns ≤ s'.turns := by
  unfold takeWord at h
  split at h
  · cases h
  · cases h; exact le_rfl
  · cases h; exact le_rfl
  · split at h <;> (cases h; exact Nat.le_succ _)

/-- Only the choice with the number `turns` is read. -/
theorem takeWord_congr {pick pick' : Nat → Bool} {s : State} (h : pick s.turns = pick' s.turns) :
    takeWord pick s = takeWord pick' s := by
  simp only [takeWord, h]

/-- No choice with a number below `turns` is read again. -/
theorem wordsTaken_congr {pick pick' : Nat → Bool} {s : State} (k : Nat)
    (h : ∀ m, s.turns ≤ m → pick m = pick' m) : wordsTaken pick k s = wordsTaken pick' k s := by
  induction k generalizing s with
  | zero => rfl
  | succ k ih =>
    have hcongr := takeWord_congr (h s.turns le_rfl)
    cases hw : takeWord pick s with
    | none => rw [wordsTaken_of_takeWord_none hw, wordsTaken_of_takeWord_none (hcongr ▸ hw)]
    | some taken =>
      obtain ⟨w, s'⟩ := taken
      rw [wordsTaken_succ hw, wordsTaken_succ (hcongr ▸ hw),
        ih fun m hm => h m ((turns_le_of_takeWord hw).trans hm)]

/-- Where the choice with the current number gives `w`, it can be set to do so and the later ones made freely. -/
theorem wordsTaken_update {b : Bool} {s s' : State} {w : Word}
    (h : ∀ pick, pick s.turns = b → takeWord pick s = some (w, s')) (hturns : s.turns < s'.turns)
    (pick : Nat → Bool) (k : Nat) :
    wordsTaken (Function.update pick s.turns b) (k + 1) s = w :: wordsTaken pick k s' := by
  rw [wordsTaken_succ (h _ (Function.update_self ..))]
  exact congrArg (w :: ·)
    (wordsTaken_congr k fun _ hm => Function.update_of_ne (hturns.trans_le hm).ne' ..)

/-- The choices are built from the last word back: where both agents have a word waiting, the choice with the current
number is set to the agent whose word comes next. -/
theorem exists_choices_of_interleaving {es rs ws : List Word} (h : Interleaving es rs ws) (s : State)
    (n : Nat) : ∃ pick, wordsTaken pick ws.length (s.setQueues es rs n) = ws := by
  induction h generalizing n with
  | done => exact ⟨fun _ => true, rfl⟩
  | @event e es rs ws _ ih =>
    cases rs with
    | nil =>
      obtain ⟨pick, hpick⟩ := ih n
      exact ⟨pick, (wordsTaken_succ (takeWord_event pick rfl rfl) _).trans (congrArg (e :: ·) hpick)⟩
    | cons r rs =>
      obtain ⟨pick, hpick⟩ := ih (n + 1)
      exact ⟨Function.update pick n true,
        (wordsTaken_update (s := s.setQueues (e :: es) (r :: rs) n)
          (fun _ => takeWord_event_first rfl rfl) n.lt_succ_self pick _).trans
          (congrArg (e :: ·) hpick)⟩
  | @render r es rs ws _ ih =>
    cases es with
    | nil =>
      obtain ⟨pick, hpick⟩ := ih n
      exact ⟨pick, (wordsTaken_succ (takeWord_render pick rfl rfl) _).trans (congrArg (r :: ·) hpick)⟩
    | cons e es =>
      obtain ⟨pick, hpick⟩ := ih (n + 1)
      exact ⟨Function.update pick n false,
        (wordsTaken_update (s := s.setQueues (e :: es) (r :: rs) n)
          (fun _ => takeWord_render_first rfl rfl) n.lt_succ_self pick _).trans
          (congrArg (r :: ·) hpick)⟩

/-- Settles O14: an interleaving has as many words as are waiting. -/
theorem everyInterleavingIsAnExecution : Obligations.EveryInterleavingIsAnExecution := by
  intro s ws h
  obtain ⟨pick, hpick⟩ := exists_choices_of_interleaving h s s.turns
  rw [interleaving_length h] at hpick
  exact ⟨pick, hpick⟩

/-! ### No command reads the words waiting -/

theorem renderFrames_setQueues (p : Params) (n : Nat) (s : State) (es rs : List Word) (k : Nat) :
    renderFrames p n (s.setQueues es rs k) =
      ((renderFrames p n s).1.setQueues es rs k, (renderFrames p n s).2) := by
  induction n generalizing s with
  | zero => rfl
  | succ n ih =>
    have hstep : sampleStep p (s.setQueues es rs k) = (sampleStep p s).setQueues es rs k := rfl
    rw [renderFrames_succ, renderFrames_succ, hstep, ih, setQueues_filter]

theorem setCtrl_setQueues (s : State) (index : Nat) (v : F32) (es rs : List Word) (k : Nat) :
    (s.setQueues es rs k).setCtrl index v = (s.setCtrl index v).setQueues es rs k := by
  unfold State.setCtrl
  split <;> rfl

theorem exec_setQueues {i : Instr} {s t : State} (h : exec i s = .next t) (es rs : List Word) (k : Nat) :
    exec i (s.setQueues es rs k) = .next (t.setQueues es rs k) := by
  cases i with
  | nop => cases h; rfl
  | noteOn note => cases h; rfl
  | noteOff note => cases h; rfl
  | setCtrl index value => cases h; exact congrArg _ (setCtrl_setQueues s index _ es rs k)
  | render n =>
    cases h
    refine congrArg Host.Outcome.next ?_
    rw [render, renderFrames_setQueues]
    rfl

theorem execWord_setQueues {w : Word} {s t : State} (h : execWord w s = .next t) (es rs : List Word)
    (k : Nat) : execWord w (s.setQueues es rs k) = .next (t.setQueues es rs k) := by
  cases hd : decode w with
  | ok i =>
    rw [execWord_of_decode hd] at h ⊢
    exact exec_setQueues h es rs k
  | error r =>
    rw [execWord_ignored hd] at h ⊢
    cases h
    rfl

/-! ### A run executes the words it takes (R35, R41) -/

/-- The word taken depends on the words waiting and the number of the next choice alone. -/
theorem takeWord_setQueues {pick : Nat → Bool} {s s' : State} {w : Word} (h : takeWord pick s = some (w, s'))
    (v : State) : takeWord pick (v.setQueues s.eventQueue s.renderQueue s.turns) =
      some (w, v.setQueues s'.eventQueue s'.renderQueue s'.turns) := by
  unfold takeWord at h ⊢
  simp only [setQueues_eventQueue, setQueues_renderQueue, setQueues_turns]
  split at h
  · cases h
  · cases h; rfl
  · cases h; rfl
  · split at h
    · next hp => cases h; exact if_pos hp
    · next hp => cases h; exact if_neg hp

theorem wordsTaken_setQueues (pick : Nat → Bool) (k : Nat) (s v : State) :
    wordsTaken pick k (v.setQueues s.eventQueue s.renderQueue s.turns) = wordsTaken pick k s := by
  induction k generalizing s with
  | zero => rfl
  | succ k ih =>
    cases h : takeWord pick s with
    | none =>
      have hv : takeWord pick (v.setQueues s.eventQueue s.renderQueue s.turns) = none :=
        takeWord_eq_none.2 (takeWord_eq_none (s := s).1 h)
      rw [wordsTaken_of_takeWord_none h, wordsTaken_of_takeWord_none hv]
    | some taken => rw [wordsTaken_succ h, wordsTaken_succ (takeWord_setQueues h v), ih]

/-- Steps from `v` with other words waiting: those words are executed on `v` itself, whose own are never read. -/
theorem runSteps_executes_wordsTaken (k : Nat) (v : State) (es rs : List Word) (n : Nat) : ∃ t u,
    runSteps k (v.setQueues es rs n) = .next t ∧
      runWords (wordsTaken Config.eventFirst k (v.setQueues es rs n)) v = .next u ∧
      t = u.setQueues t.eventQueue t.renderQueue t.turns := by
  induction k generalizing v es rs n with
  | zero => exact ⟨_, v, rfl, rfl, rfl⟩
  | succ k ih =>
    cases h : takeWord Config.eventFirst (v.setQueues es rs n) with
    | none =>
      rw [runSteps_succ (step_of_takeWord_none h), wordsTaken_of_takeWord_none h,
        ← wordsTaken_of_takeWord_none h k]
      exact ih v es rs n
    | some taken =>
      obtain ⟨w, s'⟩ := taken
      obtain ⟨v', hv'⟩ := execWord_next w v
      have hstep : step (v.setQueues es rs n) =
          .next (v'.setQueues s'.eventQueue s'.renderQueue s'.turns) := by
        rw [step_of_takeWord h, (takeWord_cases h).2]
        exact execWord_setQueues hv' _ _ _
      rw [runSteps_succ hstep, wordsTaken_succ h, runWords_cons hv', ← wordsTaken_setQueues _ k s' v']
      exact ih v' _ _ _

/-- Settles O15: the words waiting in `s` are executed on `s`. -/
theorem runExecutesTheWordsInOrder : Obligations.RunExecutesTheWordsInOrder :=
  fun k s => runSteps_executes_wordsTaken k s s.eventQueue s.renderQueue s.turns

/-! ### A run takes every word waiting (R35) -/

/-- A step takes one word, if there is one. -/
theorem waiting_step {s t : State} (h : step s = .next t) : waiting t = waiting s - 1 := by
  cases hw : takeWord Config.eventFirst s with
  | none =>
    rw [step_of_takeWord_none hw] at h
    cases h
    rw [waiting_eq_zero.2 (takeWord_eq_none.1 hw)]
  | some taken =>
    obtain ⟨w, s'⟩ := taken
    obtain ⟨he, hr, -⟩ := execWord_queues (step_of_takeWord hw ▸ h)
    have hsame : waiting t = waiting s' := by rw [waiting, he, hr, waiting]
    rw [hsame, waiting_takeWord hw, Nat.add_sub_cancel]

theorem exists_step (s : State) : ∃ t, step s = .next t := by
  cases h : takeWord Config.eventFirst s with
  | none => exact ⟨s, step_of_takeWord_none h⟩
  | some taken => exact step_of_takeWord h ▸ execWord_next taken.1 taken.2

theorem waiting_runSteps (k : Nat) (s : State) :
    ∃ t, runSteps k s = .next t ∧ waiting t = waiting s - k := by
  induction k generalizing s with
  | zero => exact ⟨s, rfl, rfl⟩
  | succ k ih =>
    obtain ⟨s', hs'⟩ := exists_step s
    obtain ⟨t, ht, hwaiting⟩ := ih s'
    refine ⟨t, runSteps_succ hs' k ▸ ht, ?_⟩
    rw [hwaiting, waiting_step hs', Nat.sub_sub, Nat.add_comm]

/-- Settles O16: each step takes one word, so as many steps as words waiting leave a count of 0. -/
theorem asManyStepsAsWordsWaitingLeaveNone : Obligations.AsManyStepsAsWordsWaitingLeaveNone := by
  intro s
  obtain ⟨t, ht, hwaiting⟩ := waiting_runSteps (waiting s) s
  exact ⟨t, ht, waiting_eq_zero.1 (hwaiting.trans (Nat.sub_self _))⟩

end Sys2Proof.Proofs
end

section
/-! PROOFS. The statements of spec 30_encoding.md: the round trip between commands and words, the opcode map of match
and mask, the words that are ignored, the assembler, and the word the host places next. -/

namespace Sys2Proof.Proofs

open Sys2Proof.Machine Sys2Proof.Laws

/-! ### The parts of the fields `A` and `B` (R45, R46) -/

theorem field_31_24 (w : Word) : field w 31 24 = opField w := rfl

theorem field_23_16 (w : Word) : field w 23 16 = aField w := rfl

theorem field_15_0 (w : Word) : field w 15 0 = bField w := rfl

theorem field_23_23 (w : Word) : field w 23 23 = aField w / 2 ^ 7 := by
  simp only [aField, field]
  omega

theorem field_22_16 (w : Word) : field w 22 16 = aField w % 2 ^ 7 := by
  simp only [aField, field]
  omega

theorem field_15_7 (w : Word) : field w 15 7 = bField w / 2 ^ 7 := by
  simp only [bField, field]
  omega

theorem field_6_0 (w : Word) : field w 6 0 = bField w % 2 ^ 7 := by
  simp only [bField, field]
  omega

theorem wordOfFields_fields (w : Word) : wordOfFields (opField w) (aField w) (bField w) = w := by
  rw [wordOfFields, ← toNat_eq_fields, BitVec.ofNat_toNat, BitVec.setWidth_eq]

/-! ### The round trip (R48) -/

/-- Format N of R46: the fields of a note command's word. -/
theorem fields_of_noteWord {op note : Nat} (hop : op < 2 ^ 8) (hn : note < 2 ^ 7) :
    opField (wordOfFields op note 0) = op ∧ field (wordOfFields op note 0) 23 23 = 0 ∧
      field (wordOfFields op note 0) 22 16 = note ∧ bField (wordOfFields op note 0) = 0 := by
  obtain ⟨ho, ha, hb⟩ := fields_wordOfFields hop (by omega : note < 2 ^ 8) (by decide : 0 < 2 ^ 16)
  rw [field_23_23, field_22_16, ha]
  exact ⟨ho, Nat.div_eq_of_lt hn, Nat.mod_eq_of_lt hn, hb⟩

/-- A word of format N with its reserved bits clear is made of its opcode and its note. -/
theorem noteWord_of_fields {w : Word} (ha : field w 23 23 = 0) (hb : bField w = 0) :
    wordOfFields (opField w) (field w 22 16) 0 = w := by
  rw [field_23_23] at ha
  rw [field_22_16, Nat.mod_eq_of_lt (by omega), ← hb, wordOfFields_fields]

/-- Settles O1: the fields of the assembled word are its parts, and an operand in range leaves the reserved bits
clear. -/
theorem decodeOfEncodeIsTheCommand : Obligations.DecodeOfEncodeIsTheCommand := by
  intro i hi
  cases i with
  | nop => rfl
  | noteOn note =>
    have hn : note < 2 ^ 7 := by simpa using hi
    obtain ⟨ho, ha, hnote, hb⟩ := fields_of_noteWord (op := 1) (by decide) hn
    simp [encode, decode, ho, ha, hnote, hb]
  | noteOff note =>
    have hn : note < 2 ^ 7 := by simpa using hi
    obtain ⟨ho, ha, hnote, hb⟩ := fields_of_noteWord (op := 2) (by decide) hn
    simp [encode, decode, ho, ha, hnote, hb]
  | setCtrl index value =>
    obtain ⟨hx, hv⟩ : index < 2 ^ 8 ∧ value < 2 ^ 7 := by simpa using hi
    obtain ⟨ho, ha, hb⟩ := fields_wordOfFields (op := 3) (by decide) hx (by omega : value < 2 ^ 16)
    simp only [encode, decode, ho, field_23_16, ha, field_15_7, field_6_0, hb, Nat.div_eq_of_lt hv,
      Nat.mod_eq_of_lt hv, if_true]
  | render n =>
    have hn : n < 2 ^ 16 := by simpa using hi
    obtain ⟨ho, ha, hb⟩ := fields_wordOfFields (op := 4) (a := 0) (by decide) (by decide) hn
    simp [encode, decode, ho, field_23_16, ha, field_15_0, hb]

/-- The word is its three fields, and where the reserved bits are clear each field is its operand. -/
theorem encode_of_decode {w : Word} {i : Instr} (h : decode w = .ok i) : encode i = w := by
  rcases decode_ok_cases h with
    ⟨rfl, rfl⟩ | ⟨ho, ha, hb, rfl⟩ | ⟨ho, ha, hb, rfl⟩ | ⟨ho, hb, rfl⟩ | ⟨ho, ha, rfl⟩
  · rfl
  · rw [encode, ← ho, noteWord_of_fields ha hb]
  · rw [encode, ← ho, noteWord_of_fields ha hb]
  · rw [field_15_7] at hb
    rw [encode, ← ho, field_23_16, field_6_0, Nat.mod_eq_of_lt (by omega), wordOfFields_fields]
  · conv_rhs => rw [← wordOfFields_fields w, ho, ← field_23_16, ha]
    rw [encode, field_15_0]

/-- Settles O2: the decoder's fields are in range by their widths, and the encoder puts them back where they came
from. -/
theorem encodeOfDecodeIsTheWord : Obligations.EncodeOfDecodeIsTheWord :=
  fun _ _ h => ⟨decode_wellFormed h, encode_of_decode h⟩

/-! ### The words that are ignored (R52, R53) -/

/-- `w` has an assigned opcode, and the bits that its format fixes or marks `r` are 0 (R46). -/
def ReservedClear (w : Word) : Prop :=
  w = 0 ∨
  ((opField w = 1 ∨ opField w = 2) ∧ field w 23 23 = 0 ∧ bField w = 0) ∨
  (opField w = 3 ∧ field w 15 7 = 0) ∨
  (opField w = 4 ∧ field w 23 16 = 0)

theorem decodes_iff_reservedClear (w : Word) : (∃ i, decode w = .ok i) ↔ ReservedClear w := by
  constructor
  · rintro ⟨i, h⟩
    rcases decode_ok_cases h with hw | ⟨ho, ha, hb, -⟩ | ⟨ho, ha, hb, -⟩ | ⟨ho, hb, -⟩ | ⟨ho, ha, -⟩
    · exact .inl hw.1
    · exact .inr (.inl ⟨.inl ho, ha, hb⟩)
    · exact .inr (.inl ⟨.inr ho, ha, hb⟩)
    · exact .inr (.inr (.inl ⟨ho, hb⟩))
    · exact .inr (.inr (.inr ⟨ho, ha⟩))
  · rintro (rfl | ⟨ho | ho, ha, hb⟩ | ⟨ho, hb⟩ | ⟨ho, ha⟩)
    · exact ⟨.nop, rfl⟩
    all_goals simp [decode, *]

theorem ignored_iff_not_reservedClear (w : Word) : (∃ r, decode w = .error r) ↔ ¬ReservedClear w := by
  rw [← decodes_iff_reservedClear]
  cases decode w <;> simp

/-- Settles O4: a word is ignored just when its reserved bits are not clear, which each opcode's format spells
out. -/
theorem ignoredWordsAreMalformedOrUnassigned : Obligations.IgnoredWordsAreMalformedOrUnassigned := by
  intro w
  rw [ignored_iff_not_reservedClear, ReservedClear, field_15_0]
  by_cases hw : w = 0
  · subst hw
    decide
  · simp only [hw, false_or, ne_eq, not_false_eq_true, and_true]
    omega

/-! ### The opcode map (R47) -/

theorem field_and (w m : Word) (hi lo : Nat) : field (w &&& m) hi lo = field w hi lo &&& field m hi lo := by
  simp only [field, BitVec.toNat_and, Nat.and_div_two_pow, Nat.and_mod_two_pow]

/-- A mask keeps a field that it covers. -/
theorem field_and_covered {m : Word} {hi lo : Nat} (hm : field m hi lo = 2 ^ (hi + 1 - lo) - 1) (w : Word) :
    field (w &&& m) hi lo = field w hi lo := by
  rw [field_and, hm, Nat.and_two_pow_sub_one_of_lt_two_pow (field_lt w hi lo)]

/-- A mask clears a field that it leaves out. -/
theorem field_and_uncovered {m : Word} {hi lo : Nat} (hm : field m hi lo = 0) (w : Word) :
    field (w &&& m) hi lo = 0 := by
  rw [field_and, hm, Nat.and_zero]

/-- Two words are equal when they agree in the five columns of R46's table. -/
theorem eq_iff_columns (w v : Word) :
    w = v ↔ field w 31 24 = field v 31 24 ∧ field w 23 23 = field v 23 23 ∧
      field w 22 16 = field v 22 16 ∧ field w 15 7 = field v 15 7 ∧ field w 6 0 = field v 6 0 := by
  refine ⟨fun h => h ▸ ⟨rfl, rfl, rfl, rfl, rfl⟩, fun h => BitVec.eq_of_toNat_eq ?_⟩
  have := w.isLt
  have := v.isLt
  simp only [field] at h
  omega

/-- The clear bits of each opcode's format, column by column. -/
theorem reservedClear_iff_columns (w : Word) : ReservedClear w ↔
    (opField w = 0 ∧ field w 23 23 = 0 ∧ field w 22 16 = 0 ∧ field w 15 7 = 0 ∧ field w 6 0 = 0) ∨
    ((opField w = 1 ∨ opField w = 2) ∧ field w 23 23 = 0 ∧ field w 15 7 = 0 ∧ field w 6 0 = 0) ∨
    (opField w = 3 ∧ field w 15 7 = 0) ∨
    (opField w = 4 ∧ field w 23 23 = 0 ∧ field w 22 16 = 0) := by
  have hA : field w 23 16 = 0 ↔ field w 23 23 = 0 ∧ field w 22 16 = 0 := by
    rw [field_23_23, field_22_16, field_23_16]
    omega
  have hB : bField w = 0 ↔ field w 15 7 = 0 ∧ field w 6 0 = 0 := by
    rw [field_15_7, field_6_0]
    omega
  rw [ReservedClear, eq_iff_columns w 0, hA, hB]
  rfl

/-- The rows' patterns hold an opcode and nothing else. -/
theorem pattern_columns : ∀ r ∈ opcodeTable, field r.pattern 23 23 = 0 ∧ field r.pattern 22 16 = 0 ∧
    field r.pattern 15 7 = 0 ∧ field r.pattern 6 0 = 0 := by decide

/-- A row is matched by the words of its opcode whose reserved bits are clear: its mask covers the opcode's column and
the columns of its format that are fixed or marked `r`. -/
theorem matchesWord_iff (w : Word) : ∀ r ∈ opcodeTable,
    (r.matchesWord w = true ↔ opField w = opField r.pattern ∧ ReservedClear w) := by
  have hop : opField 0x00000000 = 0 ∧ opField 0x01000000 = 1 ∧ opField 0x02000000 = 2 ∧
    opField 0x03000000 = 3 ∧ opField 0x04000000 = 4 := by decide
  intro r hr
  obtain ⟨h1, h2, h3, h4⟩ := pattern_columns r hr
  rw [OpcodeRow.matchesWord, beq_iff_eq, eq_iff_columns, h1, h2, h3, h4, reservedClear_iff_columns]
  simp only [opcodeTable, List.mem_cons, List.not_mem_nil, or_false] at hr
  rcases hr with rfl | rfl | rfl | rfl | rfl
  all_goals
    simp (disch := decide) only [field_and_covered, field_and_uncovered]
    simp only [field_31_24, true_and, and_true]
    omega

theorem mnemonic_eq_iff (i : Instr) : ∀ r ∈ opcodeTable,
    (i.mnemonic = r.mnemonic ↔ i.opcode = opField r.pattern) := by
  cases i <;> simp only [Instr.mnemonic, Instr.opcode] <;> decide

theorem opField_of_decode {w : Word} {i : Instr} (h : decode w = .ok i) : opField w = i.opcode := by
  rcases decode_ok_cases h with ⟨rfl, rfl⟩ | ⟨ho, -, -, rfl⟩ | ⟨ho, -, -, rfl⟩ | ⟨ho, -, rfl⟩ | ⟨ho, -, rfl⟩
  · rfl
  all_goals exact ho

theorem row_eq_of_opcode_eq : ∀ r ∈ opcodeTable, ∀ r' ∈ opcodeTable,
    opField r.pattern = opField r'.pattern → r = r' := by decide

/-- Settles O3: matching a row and decoding to a command of it both say that the word has the row's opcode and clear
reserved bits, and the rows' opcodes differ. -/
theorem decoderFollowsOpcodeMap : Obligations.DecoderFollowsOpcodeMap := by
  refine fun w => ⟨fun r hr => ?_, fun r hr r' hr' h h' => ?_⟩
  · rw [matchesWord_iff w r hr, ← decodes_iff_reservedClear, ← exists_and_left]
    refine exists_congr fun i => and_comm.trans (and_congr_right fun hi => ?_)
    rw [mnemonic_eq_iff i r hr, opField_of_decode hi]
  · exact row_eq_of_opcode_eq r hr r' hr' <|
      ((matchesWord_iff w r hr).1 h).1.symm.trans ((matchesWord_iff w r' hr').1 h').1

/-- Settles O5: the decoder evaluated on each word. -/
theorem sampleWordsDecodeAsWritten : Obligations.SampleWordsDecodeAsWritten := by
  unfold Obligations.SampleWordsDecodeAsWritten
  decide

/-! ### The assembler (R56) -/

theorem assemble_command (p : Params) (i : Instr) (w : Word) :
    (AsmLine.command i).assemble p = .ok w ↔ i.WellFormed = true ∧ w = encode i := by
  simp only [AsmLine.assemble, AsmLine.expand]
  split <;> simp [*, eq_comm]

theorem assemble_word (p : Params) (n : Nat) (w : Word) :
    (AsmLine.word n).assemble p = .ok w ↔ w.toNat = n := by
  have hw := w.isLt
  simp only [AsmLine.assemble, AsmLine.expand]
  split
  · next hn =>
    rw [Except.ok.injEq, ← BitVec.toNat_inj, BitVec.toNat_ofNat, Nat.mod_eq_of_lt hn, eq_comm]
  · next hn =>
    simp only [reduceCtorEq, false_iff]
    omega

/-- Settles O7: a pseudo-command is assembled as the command it expands to, by definition. -/
theorem assemblerRefusesOperandsOutOfRange : Obligations.AssemblerRefusesOperandsOutOfRange :=
  ⟨assemble_command, assemble_word, fun _ => rfl, fun _ _ => ⟨rfl, rfl⟩⟩

/-! ### The word that the host places (R35, R48) -/

theorem decode_tableWord {nbits w : Nat} {i : Instr} (h : decodeTableWord nbits w = some i) :
    decode (tableWord nbits w) = .ok i := by
  unfold decodeTableWord at h
  split at h
  · cases hd : decode (tableWord nbits w) with
    | ok j => simpa [hd, Except.toOption] using h
    | error r => simp [hd, Except.toOption] at h
  · simp at h

/-- Settles O9: the placed word is the event agent's oldest and no other word competes with it. -/
theorem placedWordIsTheNextCommand : Obligations.PlacedWordIsTheNextCommand := fun _ _ _ _ h =>
  (stepRunsTheDecodedCommand _ _ _ (decode_tableWord h)).1 _ rfl rfl

end Sys2Proof.Proofs
end

section
/-! PROOFS. The statements of spec 40_commands.md: the next state of each event command and of an ignored word, the
frequency of a note, and the number of voices that note commands leave. -/

namespace Sys2Proof.Proofs

open Sys2Proof.Fp Sys2Proof.Machine Sys2Proof.Laws Sys2Proof.Safety

/-! ### Differences of integers are exact (R8) -/

theorem toNat_ofNat (n : Nat) : (ofNat n).toNat = roundMag (n * 2 ^ 149) 1 := by
  rw [ofNat, toNat_ofMag_false (roundMag_le _ _)]

theorem ofNat_zero : ofNat 0 = k0 := by decide +kernel

theorem units_ofNat {n : Nat} (hn : n < 2 ^ 24) : units (ofNat n).toNat = n * 2 ^ 149 := by
  simpa [toNat_ofNat] using units_roundMag_exact (d := 1) hn.le (by decide : 149 ≤ 252) one_pos

theorem toNat_ofNat_lt {n : Nat} (hn : n < 2 ^ 24) : (ofNat n).toNat < infMag := by
  rw [← units_lt_units, units_ofNat hn, show units infMag = 2 ^ 128 * 2 ^ 149 by decide]
  omega

theorem sub_ofNat_of_le (d : F32) {m n : Nat} (h : n ≤ m) (hm : m < 2 ^ 24) :
    sub d (ofNat m) (ofNat n) = ofNat (m - n) := by
  have hn := h.trans_lt hm
  have hle : (ofNat n).toNat ≤ (ofNat m).toNat := by
    rw [← units_le_units, units_ofNat hn, units_ofNat hm]
    exact Nat.mul_le_mul_right _ h
  apply BitVec.eq_of_toNat_eq
  rw [toNat_sub d (toNat_ofNat_lt hm) hle, units_ofNat hn, units_ofNat hm, ← Nat.sub_mul, toNat_ofNat]

theorem neg_ofMag (s : Bool) {m : Nat} (h : m < 2 ^ 31) : neg (ofMag s m) = ofMag (!s) m := by
  rw [neg, sign_ofMag _ _ h, mag_ofMag _ _ h]

/-- A difference that is not zero changes its sign alone when its terms are exchanged. -/
theorem sub_eq_neg_sub (d : F32) {a b : F32} (ha : isFinite a = true) (hb : isFinite b = true)
    (h : value a ≠ value b) : sub d a b = neg (sub d b a) := by
  have hab : value a + value (neg b) ≠ 0 := by rw [value_neg]; omega
  have hba : value b + value (neg a) = -(value a + value (neg b)) := by rw [value_neg, value_neg]; omega
  rw [sub, sub, add_finite ha ((isFinite_neg b).trans hb) hab,
    add_finite hb ((isFinite_neg a).trans ha) (by omega), hba, Int.natAbs_neg,
    neg_ofMag _ (roundMag_lt _ _), ← decide_not,
    decide_eq_decide.2 (by omega : value a + value (neg b) < 0 ↔ ¬-(value a + value (neg b)) < 0)]

theorem value_sub_ofNat (d : F32) {m n : Nat} (hm : m < 2 ^ 24) (hn : n < 2 ^ 24) :
    value (sub d (ofNat m) (ofNat n)) = ((m : Int) - n) * 2 ^ 149 := by
  obtain ⟨fm, vm⟩ := smallIntegersConvertExactly m hm
  obtain ⟨fn, vn⟩ := smallIntegersConvertExactly n hn
  rcases Nat.lt_or_ge m n with h | h
  · rw [sub_eq_neg_sub d fm fn (by omega), sub_ofNat_of_le d h.le hn, value_neg,
      (smallIntegersConvertExactly (n - m) (by omega)).2]
    omega
  · rw [sub_ofNat_of_le d h hm, (smallIntegersConvertExactly (m - n) (by omega)).2]
    omega

/-! ### Products and quotients with 0.0, 1.0 or equal operands -/

section
variable {a b : F32}

theorem units_k1 : units k1.toNat = 2 ^ 149 := by decide

theorem toNat_mul (d : F32) (ha : a.toNat < infMag) (hb : b.toNat < infMag) :
    (mul d a b).toNat = roundMag (units a.toNat * units b.toNat) (2 ^ 149) := by
  rw [mul_finite (isFinite_of_toNat_lt ha) (isFinite_of_toNat_lt hb), sign_eq_false ha, sign_eq_false hb,
    mag_eq_toNat ha, mag_eq_toNat hb]
  exact toNat_ofMag_false (roundMag_le _ _)

theorem mul_k1 (d : F32) (ha : a.toNat < infMag) : mul d a k1 = a := by
  apply BitVec.eq_of_toNat_eq
  rw [toNat_mul d ha (by decide), units_k1, roundMag_units (by positivity) ha.le]

theorem k0_div (d : F32) (hb : b.toNat < infMag) (hb0 : 0 < b.toNat) : div d k0 b = k0 := by
  apply BitVec.eq_of_toNat_eq
  rw [toNat_div d (by decide) hb hb0, show k0.toNat = 0 from rfl, units_zero, Nat.zero_mul,
    roundMag_zero (units_lt_units.2 hb0)]

theorem div_same (d : F32) (ha : a.toNat < infMag) (ha0 : 0 < a.toNat) : div d a a = k1 := by
  apply BitVec.eq_of_toNat_eq
  rw [toNat_div d ha ha ha0, ← units_k1, Nat.mul_comm, roundMag_units (units_lt_units.2 ha0) (by decide)]

/-- A quotient by a finite value that is not zero has no use for its draw, unless the dividend is a NaN. -/
theorem div_eq_div_of_draws (d d' : F32) (ha : isNaN a = false) (hb : isFinite b = true)
    (hz : isZero b = false) : div d a b = div d' a b := by
  obtain ⟨hbn, hbi⟩ := (isFinite_iff b).1 hb
  simp [div, ha, hbn, hbi, hz]

end

/-! ### The frequency of a note (R58) -/

/-- What `FREQ` gives where `POW2` is within one unit in the last place of 2.0. -/
theorem toNat_mul_k440_of_nearTwo (d : F32) {y : F32} (hy : nearTwo y = true) :
    0x445BFFFE ≤ (mul d k440 y).toNat ∧ (mul d k440 y).toNat ≤ 0x445C0002 := by
  obtain ⟨hlo, hhi⟩ : 0x3FFFFFFE ≤ y.toNat ∧ y.toNat ≤ 0x40000001 := by simpa [nearTwo] using hy
  have elo : roundMag (units k440.toNat * units 0x3FFFFFFE) (2 ^ 149) = 0x445BFFFE := by decide +kernel
  have ehi : roundMag (units k440.toNat * units 0x40000001) (2 ^ 149) = 0x445C0002 := by decide +kernel
  have mono {m n : Nat} (h : m ≤ n) : roundMag (units k440.toNat * units m) (2 ^ 149) ≤
      roundMag (units k440.toNat * units n) (2 ^ 149) :=
    roundMag_mono (by positivity) (by positivity)
      (Nat.mul_le_mul_right _ (Nat.mul_le_mul_left _ (units_le_units.2 h)))
  rw [toNat_mul d (by decide) (hhi.trans_lt (by decide)), ← elo, ← ehi]
  exact ⟨mono hlo, mono hhi⟩

/-- Settles O20: the differences of small integers are exact, so the exponent of note 69 is 0.0 and that of note 81 is
12.0 / 12.0 = 1.0, where P2 and P3 say what `POW2` is. -/
theorem noteFrequencyIsEqualTempered : Obligations.NoteFrequencyIsEqualTempered := by
  have h69 : k69 = ofNat 69 := by decide +kernel
  have h12 : ofNat (81 - 69) = k12 := by decide +kernel
  refine ⟨fun _ _ _ => rfl, fun d note hn => ?_, fun p nan hp => ⟨?_, ?_⟩⟩
  · rw [h69]
    exact value_sub_ofNat d (by omega) (by decide)
  · rw [freq, h69, sub_ofNat_of_le _ le_rfl (by decide), Nat.sub_self, ofNat_zero,
      k0_div _ (by decide) (by decide), hp.p2, mul_k1 _ (by decide)]
  · rw [freq, h69, sub_ofNat_of_le _ (by decide) (by decide), h12, div_same _ (by decide) (by decide)]
    exact toNat_mul_k440_of_nearTwo _ hp.p3

/-! ### The number of voices (R63) -/

/-- The entries of a voice table whose note has no NOTE_OFF among the commands. -/
def voicesKept (cs : List Instr) (vs : List Voice) : Nat :=
  vs.countP (fun v => Instr.noteOff v.note ∉ cs)

theorem voicesKept_noteOn (note : Nat) (cs : List Instr) (vs : List Voice) :
    voicesKept (.noteOn note :: cs) vs = voicesKept cs vs := by
  simp [voicesKept]

theorem voicesKept_append_voice (cs : List Instr) (vs : List Voice) (v : Voice) :
    voicesKept cs (vs ++ [v]) = voicesKept cs vs + if Instr.noteOff v.note ∈ cs then 0 else 1 := by
  simp [voicesKept, List.countP_append, List.countP_singleton]

theorem voicesKept_noteOff (note : Nat) (cs : List Instr) (vs : List Voice) :
    voicesKept (.noteOff note :: cs) vs = voicesKept cs (withoutNote note vs) := by
  rw [voicesKept, voicesKept, withoutNote, List.countP_filter]
  exact List.countP_congr fun v _ => by simp [and_comm]

/-- Notes held when the commands begin are counted as a NOTE_ON among them is. -/
theorem runCommands_voices_length {cs : List Instr} (hcs : ∀ c ∈ cs, isNoteCommand c = true) (s : State) :
    ∃ t, runCommands cs s = .next t ∧ t.voices.length = voicesKept cs s.voices + heldNotes cs := by
  induction cs generalizing s with
  | nil => exact ⟨s, rfl, by simp [voicesKept, heldNotes]⟩
  | cons c rest ih =>
    obtain ⟨hc, hrest⟩ := List.forall_mem_cons.1 hcs
    cases c with
    | noteOn note =>
      obtain ⟨t, ht, hlen⟩ := ih hrest (noteOn Config.params note s)
      refine ⟨t, ht, ?_⟩
      rw [hlen, noteOn_unbounded, useDraws_voices, setGate_voices, setVoices_voices, voicesKept_append_voice,
        voicesKept_noteOn, heldNotes, Nat.add_assoc]
    | noteOff note =>
      obtain ⟨t, ht, hlen⟩ := ih hrest (noteOff note s)
      refine ⟨t, ht, ?_⟩
      rw [hlen, noteOff, setGate_voices, setVoices_voices, voicesKept_noteOff]
      rfl
    | nop => exact absurd hc Bool.false_ne_true
    | setCtrl index value => exact absurd hc Bool.false_ne_true
    | render n => exact absurd hc Bool.false_ne_true

/-- Settles O57: after reset no note is held before the first command. -/
theorem voiceCountIsTheHeldNoteCount : Obligations.VoiceCountIsTheHeldNoteCount := fun cs hcs => by
  simpa [State.reset, voicesKept] using runCommands_voices_length hcs State.reset

/-! ### The commands' next states (R57, R59 to R62) -/

/-- Settles O10: taking a word changes the words waiting alone, and an ignored word does nothing more. -/
theorem ignoredWordChangesNothing : Obligations.IgnoredWordChangesNothing := fun _ _ _ _ hw hd =>
  ⟨(step_of_takeWord hw).trans (execWord_ignored hd _), (takeWord_cases hw).2⟩

/-- Settles O18: the arm of NOP answers the state it was given. -/
theorem nopChangesNothing : Obligations.NopChangesNothing := fun _ => rfl

theorem hasRoom_iff {p : Params} {vs : List Voice} : hasRoom p vs = true ↔
    p.voiceCapacity = none ∨ ∃ vmax, p.voiceCapacity = some vmax ∧ vs.length < vmax := by
  unfold hasRoom
  cases p.voiceCapacity <;> simp

/-- Settles O19: NOTE_ON's two branches, the first of which is always taken where the table is unbounded. -/
theorem noteOnAppendsItsVoiceAndSetsGate : Obligations.NoteOnAppendsItsVoiceAndSetsGate := by
  refine ⟨fun note s => congrArg Host.Outcome.next (noteOn_unbounded note s), fun p note s h => ?_,
    fun p note vmax s hp hfull => ?_⟩
  · exact if_pos (hasRoom_iff.2 h)
  · have hroom : ¬hasRoom p s.voices = true := by
      rw [hasRoom_iff, hp]
      simpa using hfull
    exact if_neg hroom

/-- Settles O21: the voice table is filtered and `GATE` is written, by definition. -/
theorem noteOffRemovesEveryEntryOfItsNote : Obligations.NoteOffRemovesEveryEntryOfItsNote := fun _ _ => rfl

/-- The quotient is that of `controllerValue` whatever its draw: `fp(value)` is no NaN, even when it is infinite. -/
theorem div_k127_eq_controllerValue (d : F32) (value : Nat) :
    div d (ofNat value) k127 = controllerValue value :=
  div_eq_div_of_draws d k0 (isNaN_ofNat value) (by decide) (by decide)

/-- Settles O22: the index selects one of the four writes, or none, and the quotients of 0 and 127 are exact. -/
theorem setCtrlWritesItsController : Obligations.SetCtrlWritesItsController := by
  have h127 : ofNat 127 = k127 := by decide +kernel
  refine ⟨fun value s d => ?_, fun index value s h => congrArg Host.Outcome.next (setCtrl_none s h _), fun d => ?_⟩
  · rw [div_k127_eq_controllerValue]
    exact ⟨rfl, rfl, rfl, rfl⟩
  · rw [ofNat_zero, h127]
    exact ⟨k0_div d (by decide) (by decide), div_same d (by decide) (by decide)⟩

end Sys2Proof.Proofs
end

section
/-! PROOFS. The statements of spec 41_envelope.md: `ENV_STEP` as the formula of R66, how the envelope rises with the
gate at 1.0 and where it stalls (R67), and what every step keeps of `AMP` and `GATE`. -/

namespace Sys2Proof.Proofs

open Sys2Proof.Fp Sys2Proof.Machine Sys2Proof.Laws Sys2Proof.Safety

/-! ### The closed envelope (R66) -/

/-- With `GATE` and `AMP` at +0.0 the difference, its 64th part and the sum are exactly +0.0. -/
theorem envStep_k0_k0 (nan : Draws) : envStep nan k0 k0 = k0 := by
  have hsub (d : F32) : sub d k0 k0 = k0 := sub_eq_zero_of_value_eq d (by decide) (by decide) rfl
  have hadd (d : F32) : add d k0 k0 = k0 := add_eq_zero d (by decide) (by decide) (by decide)
  rw [envStep, hsub, k0_div _ (by decide) (by decide), hadd]

theorem sampleStep_amp_of_closed (p : Params) {s : State} (hgate : s.gate = k0) (hamp : s.amp = k0) :
    (sampleStep p s).amp = k0 := by
  obtain ⟨nan, h⟩ := sampleStep_amp p s
  rw [h, hgate, hamp, envStep_k0_k0]

/-- Settles O30: the sample step writes the `ENV_STEP` of its `AMP` and `GATE`, which keeps a closed envelope at
+0.0. -/
theorem sampleStepAdvancesTheEnvelope : Obligations.SampleStepAdvancesTheEnvelope :=
  ⟨sampleStep_amp, fun p _ => sampleStep_amp_of_closed p⟩

/-! ### Gaps between sizes, and rounding past them (R8) -/

/-- The gap above a size is its quantum. -/
theorem units_succ (m : Nat) : units (m + 1) = units m + 2 ^ (m / 2 ^ 23 - 1) := by
  obtain ⟨c, hc, hm⟩ : ∃ c < 2 ^ 24, m = (m / 2 ^ 23 - 1) * 2 ^ 23 + c :=
    ⟨m - (m / 2 ^ 23 - 1) * 2 ^ 23, by omega, by omega⟩
  generalize hk : m / 2 ^ 23 - 1 = k at *
  have hnormal : k = 0 ∨ 2 ^ 23 ≤ c := by omega
  rw [hm, Nat.add_assoc, units_significand hc (by omega), units_significand hc.le hnormal, Nat.succ_mul]

/-- A size past the middle of the gap above `m` is rounded up. -/
theorem lt_roundMag_of_lt {n d m : Nat} (hd : 0 < d) (hm : m < infMag)
    (h : (units m + units (m + 1)) * d < 2 * n) : m < roundMag n d := by
  obtain ⟨r, hr, hb⟩ := roundMag_between n d hd
  by_contra hle
  have hrm : r ≤ m := by omega
  have hmiddle : (units r + units (r + 1)) * d ≤ (units m + units (m + 1)) * d :=
    Nat.mul_le_mul_right d (Nat.add_le_add (units_le_units.2 hrm) (units_le_units.2 (by omega)))
  exact absurd (hb.above.trans hmiddle) (not_le.2 h)

/-! ### The envelope's rise with the gate at 1.0 (R67) -/

/-- The nearer `AMP` is to 1.0, the less it rises. -/
theorem envRise_anti {amp amp' : F32} (h : amp.toNat ≤ amp'.toNat) : envRise amp' ≤ envRise amp := by
  have hdiff : roundMag (units k1.toNat - units amp'.toNat) 1 ≤ roundMag (units k1.toNat - units amp.toNat) 1 := by
    have := units_le_units.2 h
    exact roundMag_mono one_pos one_pos (by omega)
  have hdiv : 0 < units kEnvDiv.toNat := by decide
  exact units_le_units.2 (roundMag_mono hdiv hdiv
    (Nat.mul_le_mul_right _ (Nat.mul_le_mul_right _ (units_le_units.2 hdiff))))

/-- `AMP` between `lo` and `hi` reaches 1/64 if `lo` does with the rise from `hi`, the least on the interval. -/
theorem le_envStep_k1_of_between (nan : Draws) {amp lo hi : F32} (hlo : lo.toNat ≤ amp.toNat)
    (hhi : amp.toNat ≤ hi.toNat) (h1 : hi.toNat ≤ k1.toNat)
    (h : units 0x3C800000 ≤ units lo.toNat + envRise hi) : 0x3C800000 ≤ (envStep nan amp k1).toNat := by
  rw [toNat_envStep_k1 nan (hhi.trans h1)]
  have hamp := units_le_units.2 hlo
  have hrise := envRise_anti hhi
  exact le_roundMag_of_le one_pos (by decide) (by omega)

/-- R67: one step reaches 1/64.  Up to 2^-25 the difference from 1.0 rounds to 1.0, and the rise alone is 1/64.  Above,
`AMP` at most `hi` rises by 1/64 less `hi` / 64, and so reaches 1/64 when it is at least `hi` / 64: three intervals,
each 64 times the one before, lead to 2^-7, and the rest is near enough to 1/64 or above it. -/
theorem envStep_k1_lower (nan : Draws) {amp : F32} (h : amp.toNat ≤ 0x3F7FFFE0) :
    0x3C800000 ≤ (envStep nan amp k1).toNat := by
  have rung (lo hi : F32) (hcheck : hi.toNat ≤ k1.toNat ∧ units 0x3C800000 ≤ units lo.toNat + envRise hi)
      (hlo : lo.toNat ≤ amp.toNat) (hhi : amp.toNat ≤ hi.toNat) :=
    le_envStep_k1_of_between nan hlo hhi hcheck.1 hcheck.2
  rcases le_or_gt amp.toNat 0x33000000 with h25 | h25
  · exact rung 0 0x33000000 (by decide +kernel) (Nat.zero_le _) h25
  rcases le_or_gt amp.toNat 0x36000000 with h19 | h19
  · exact rung 0x33000000 0x36000000 (by decide +kernel) h25.le h19
  rcases le_or_gt amp.toNat 0x39000000 with h13 | h13
  · exact rung 0x36000000 0x39000000 (by decide +kernel) h19.le h13
  rcases le_or_gt amp.toNat 0x3C000000 with h7 | h7
  · exact rung 0x39000000 0x3C000000 (by decide +kernel) h13.le h7
  rcases le_or_gt amp.toNat 0x3C800000 with h6 | h6
  · exact rung 0x3C000000 0x3C800000 (by decide +kernel) h7.le h6
  · exact h6.le.trans (envStep_k1_bounds nan h).1

/-- R67: below the stall the rise is more than half the gap above `AMP`.  Below 0.5 it is at least 1/128, far above any
gap there; from 0.5 on, at `k` times 2^-24 below 1.0, it is `k` times 2^-30, and the gap is 2^-24. -/
theorem lt_envStep_k1 (nan : Draws) {amp : F32} (h : amp.toNat < 0x3F7FFFE0) :
    amp.toNat < (envStep nan amp k1).toNat := by
  have h1 : k1.toNat = 0x3F800000 := rfl
  rw [toNat_envStep_k1 nan (by omega)]
  refine lt_roundMag_of_lt one_pos (h.trans (by decide)) ?_
  rw [units_succ]
  rcases Nat.lt_or_ge amp.toNat 0x3F000000 with hlow | hhigh
  · have hrise : envRise 0x3F000000 ≤ envRise amp := envRise_anti hlow.le
    have hgap : 2 ^ (amp.toNat / 2 ^ 23 - 1) ≤ 2 ^ 124 := Nat.pow_le_pow_right two_pos (by omega)
    have hhalf : 2 ^ 124 < 2 * envRise 0x3F000000 := by decide +kernel
    omega
  · obtain ⟨k, hk, hk32, hamp⟩ : ∃ k, k ≤ 2 ^ 23 ∧ 32 < k ∧ amp.toNat = k1.toNat - k :=
      ⟨k1.toNat - amp.toNat, by omega, by omega, by omega⟩
    rw [envRise_one_sub hk hamp, show amp.toNat / 2 ^ 23 - 1 = 125 by omega]
    omega

/-- Settles O31: at the stall the two bounds on the step meet. -/
theorem envelopeRisesUntilItStalls : Obligations.EnvelopeRisesUntilItStalls := by
  intro nan amp h
  obtain ⟨hle, hstall⟩ := envStep_k1_bounds nan h
  exact ⟨envStep_k1_lower nan h, hstall, lt_envStep_k1 nan, fun e => BitVec.eq_of_toNat_eq (by omega)⟩

/-! ### What every step keeps (R16, R67) -/

theorem envelopeLegal_of_held {s t : State} (h : EnvelopeLegal s) (hamp : t.amp = s.amp)
    (hgate : t.gate = s.gate ∨ t.gate = k1) : EnvelopeLegal t := by
  refine ⟨?_, hamp ▸ h.amp, fun hclosed => ?_⟩
  · rcases hgate with hkept | hopen
    · exact hkept ▸ h.gate
    · exact .inr hopen
  · rcases hgate with hkept | hopen
    · exact hamp.trans (h.closed (hkept.symm.trans hclosed))
    · exact absurd (hopen.symm.trans hclosed) (by decide)

/-- A closed envelope stays at +0.0, and an open one does not pass the stall. -/
theorem sampleStep_envelopeLegal {p : Params} {s : State} (h : EnvelopeLegal s) :
    EnvelopeLegal (sampleStep p s) := by
  have hgate : (sampleStep p s).gate = s.gate := sampleStep_gate p s
  rcases h.gate with hclosed | hopen
  · have hamp := sampleStep_amp_of_closed p hclosed (h.closed hclosed)
    exact ⟨.inl (hgate.trans hclosed), hamp ▸ Nat.zero_le _, fun _ => hamp⟩
  · obtain ⟨nan, hamp⟩ := sampleStep_amp p s
    have hstall := (envStep_k1_bounds nan h.amp).2
    rw [← hopen, ← hamp] at hstall
    exact ⟨.inr (hgate.trans hopen), hstall,
      fun hclosed => absurd (hopen.symm.trans (hgate.symm.trans hclosed)) (by decide)⟩

/-- Settles O55: the invariant reads `AMP` and `GATE` alone; the commands' writes of `GATE` set it to 1.0, and every
sample step keeps it. -/
theorem stepKeepsEnvelopeLegal : Obligations.StepKeepsEnvelopeLegal := fun _ _ =>
  step_keeps_amp_t_gate (fun _ _ hamp _ hgate h => envelopeLegal_of_held h hamp hgate)
    (fun _ => sampleStep_envelopeLegal)

end Sys2Proof.Proofs
end

section
/-! PROOFS. The statements of spec 42_oscillator.md: the oscillator's sum voice by voice (R69, R70), the whole numbers
it can be (R71), and how the envelope enters it (R69, R72). -/

namespace Sys2Proof.Proofs

open Sys2Proof.Fp Sys2Proof.Machine Sys2Proof.Laws Sys2Proof.Safety

/-! ### The sum, voice by voice (R69, R70) -/

/-- The last voice is added last, with the draws of its place. -/
theorem oscSumFrom_append_voice (p : Params) (nan : Draws) (amp t : F32) (i : Nat) (signal : F32)
    (vs : List Voice) (v : Voice) :
    oscSumFrom p nan amp t i signal (vs ++ [v]) =
      add (nan (oscOps * (i + vs.length) + 3)) (oscSumFrom p nan amp t i signal vs)
        (voiceSign p (nan.from (oscOps * (i + vs.length))) amp t v) := by
  induction vs generalizing i signal with
  | nil => rfl
  | cons u us ih =>
    rw [List.cons_append, oscSumFrom, oscSumFrom, ih, List.length_cons, Nat.add_right_comm i 1, Nat.add_assoc i]

theorem oscSum_append_voice (p : Params) (nan : Draws) (vs : List Voice) (v : Voice) (amp t : F32) :
    oscSum p nan (vs ++ [v]) amp t =
      add (nan (oscOps * vs.length + 3)) (oscSum p nan vs amp t)
        (voiceSign p (nan.from (oscOps * vs.length)) amp t v) := by
  simpa [oscSum] using oscSumFrom_append_voice p nan amp t 0 k0 vs v

/-- Settles O32: with no voice the loop does not run, and the last voice is added last. -/
theorem oscillatorSumsTheSignsInOrder : Obligations.OscillatorSumsTheSignsInOrder := fun p nan amp t =>
  ⟨rfl, fun vs v => oscSum_append_voice p nan vs v amp t⟩

/-! ### Whole numbers up to 2^24 are added exactly (R8) -/

/-- The whole number `z` rounded once, as `fp(n)` is but of either sign (R8), with +0.0 for 0. -/
def ofInt (z : Int) : F32 := ofMag (decide (z < 0)) (roundMag (z.natAbs * 2 ^ 149) 1)

theorem sign_ofInt (z : Int) : sign (ofInt z) = decide (z < 0) := sign_ofMag _ _ (roundMag_lt _ _)

section
variable {x y z : Int}

theorem units_mag_ofInt (hz : z.natAbs ≤ 2 ^ 24) : units (mag (ofInt z)) = z.natAbs * 2 ^ 149 := by
  rw [ofInt, mag_ofMag _ _ (roundMag_lt _ _)]
  simpa using units_roundMag_exact (d := 1) hz (by decide : 149 ≤ 252) one_pos

theorem isFinite_ofInt (hz : z.natAbs ≤ 2 ^ 24) : isFinite (ofInt z) = true := by
  rw [isFinite_iff_lt, ← infMag_eq, ← units_lt_units, units_mag_ofInt hz,
    show units infMag = 2 ^ 128 * 2 ^ 149 by decide]
  omega

theorem value_ofInt (hz : z.natAbs ≤ 2 ^ 24) : value (ofInt z) = z * 2 ^ 149 := by
  rw [value, sign_ofInt, units_mag_ofInt hz]
  by_cases hneg : z < 0
  · rw [decide_eq_true hneg, cond_true]
    omega
  · rw [decide_eq_false hneg, cond_false]
    omega

/-- Only a negative number has the sign, and its value is not 0. -/
theorem ofInt_ne_negative_zero (hz : z.natAbs ≤ 2 ^ 24) : ofInt z ≠ 0x80000000 := by
  intro h
  have hneg : decide (z < 0) = true := by rw [← sign_ofInt, h]; decide
  have hzero : z * 2 ^ 149 = 0 := by rw [← value_ofInt hz, h]; decide
  have := of_decide_eq_true hneg
  omega

/-- A sum of 0 is +0.0: its terms are not both negative. -/
theorem add_ofInt (d : F32) (hx : x.natAbs ≤ 2 ^ 24) (hy : y.natAbs ≤ 2 ^ 24) :
    add d (ofInt x) (ofInt y) = ofInt (x + y) := by
  have hv : value (ofInt x) + value (ofInt y) = (x + y) * 2 ^ 149 := by
    rw [value_ofInt hx, value_ofInt hy, Int.add_mul]
  by_cases hz : x + y = 0
  · have hsign : ¬(x < 0 ∧ y < 0) := by omega
    rw [add_cancel (isFinite_ofInt hx) (isFinite_ofInt hy) (by rw [hv, hz, Int.zero_mul]), sign_ofInt, sign_ofInt,
      ← Bool.decide_and, decide_eq_false hsign, hz]
    decide +kernel
  · rw [add_finite (isFinite_ofInt hx) (isFinite_ofInt hy) (by omega), hv, ofInt, Int.natAbs_mul,
      decide_eq_decide.2 (by omega : (x + y) * 2 ^ 149 < 0 ↔ x + y < 0)]
    rfl

end

theorem k0_eq_ofInt : k0 = ofInt 0 := by decide +kernel

theorem k1_eq_ofInt : k1 = ofInt 1 := by decide +kernel

theorem kMinus1_eq_ofInt : kMinus1 = ofInt (-1) := by decide +kernel

/-! ### The sign of a product with the envelope (R69, R72) -/

/-- `a > 0.0`, read from the bits of `a`. -/
theorem gt_k0_eq_isPositive (a : F32) : gt a k0 = isPositive a := by
  have hmag : 0 < units (mag a) ↔ 0 < mag a := by
    rw [Nat.pos_iff_ne_zero, Nat.pos_iff_ne_zero, ne_eq, units_eq_zero]
  have hvalue : decide (value k0 < value a) = (!sign a && decide (0 < mag a)) := by
    rw [show value k0 = 0 by decide, value]
    cases sign a <;> simp [hmag]
  rw [gt, hvalue, isPositive, show isNaN k0 = false by decide, Bool.not_false, Bool.and_true, Bool.and_comm]

/-- A product with +0.0 is a zero or a NaN. -/
theorem gt_mul_k0 (d raw : F32) : gt (mul d raw k0) k0 = false := by
  rw [gt_k0_eq_isPositive, isPositive]
  cases hfin : isFinite raw
  · have hnan : mul d raw k0 = nanOf d := by
      cases hraw : isNaN raw
      · have hinf : isInf raw = true := by simpa [hraw, hfin] using isFinite_iff raw
        rw [mul, hraw, hinf]
        rfl
      · exact mul_nan (.inl hraw)
    simp [hnan]
  · have hzero : mag (mul d raw k0) = 0 := by
      rw [mul_finite hfin (by decide), mag_ofMag _ _ (roundMag_lt _ _), show units (mag k0) = 0 by decide,
        Nat.mul_zero, roundMag_zero (by decide)]
    simp [hzero]

/-- A factor that is finite and not zero makes no NaN. -/
theorem isNaN_mul_eq (d : F32) {a b : F32} (hb : isFinite b = true) (hz : isZero b = false) :
    isNaN (mul d a b) = isNaN a := by
  obtain ⟨hbn, hbi⟩ := (isFinite_iff b).1 hb
  cases ha : isNaN a
  · rw [mul, ha, hbn, hbi, hz]
    simp only [Bool.or_false, Bool.and_false]
    rw [if_neg (by decide), if_neg (by decide)]
    split
    · exact isNaN_ofMag _ _ le_rfl
    · exact isNaN_ofMag _ _ (roundMag_le _ _)
  · rw [mul_nan (.inl ha), isNaN_nanOf]

/-- A product of finite values above 2^-150, half the smallest subnormal, is no zero. -/
theorem mag_mul_pos (d : F32) {a b : F32} (ha : isFinite a = true) (hb : isFinite b = true)
    (h : 2 ^ 148 < units (mag a) * units (mag b)) : 0 < mag (mul d a b) := by
  rw [mul_finite ha hb, mag_ofMag _ _ (roundMag_lt _ _)]
  refine lt_roundMag_of_lt (by decide) (by decide) ?_
  rw [units_zero, Nat.zero_add, show units (0 + 1) = 1 by decide]
  omega

/-- Settles O35: the product with an envelope that is positive, and a NaN only with the sine, has the sine's sign, and
33 units by 2^-6 is above half a unit. -/
theorem envelopeGatesBySignOnly : Obligations.EnvelopeGatesBySignOnly := by
  intro d raw amp hlow hhigh hraw
  have hamp : isFinite amp = true := isFinite_of_toNat_lt hhigh
  have hamp_mag : mag amp = amp.toNat := mag_eq_toNat hhigh
  have hamp_zero : isZero amp = false := decide_eq_false (by omega)
  have hnan : isNaN (mul d raw amp) = isNaN raw := isNaN_mul_eq d hamp hamp_zero
  rw [gt_k0_eq_isPositive, gt_k0_eq_isPositive, isPositive, isPositive, hnan]
  cases hrawn : isNaN raw
  · obtain ⟨hsign, hinf⟩ := mul_of_not_isNaN (hnan.trans hrawn)
    have hpos : 0 < mag (mul d raw amp) := by
      cases hrawi : isInf raw
      · have hsize : 33 * units 0x3C800000 ≤ units (mag raw) * units (mag amp) :=
          Nat.mul_le_mul (units_le_units.2 hraw) (units_le_units.2 (hamp_mag ▸ hlow))
        have hhalf : 2 ^ 148 < 33 * units 0x3C800000 := by decide
        exact mag_mul_pos d ((isFinite_iff raw).2 ⟨hrawn, hrawi⟩) hamp (hhalf.trans_le hsize)
      · rw [(isInf_iff _).1 (hinf (.inl hrawi))]
        decide
    rw [hsign, sign_eq_false hhigh, Bool.bne_false, decide_eq_true hpos, decide_eq_true (by omega : 0 < mag raw)]
  · simp

/-! ### The values the sum can have (R69, R71) -/

/-- A voice adds 1.0 or -1.0, and -1.0 with the envelope at +0.0, whatever its sine. -/
theorem voiceSign_cases (p : Params) (nan : Draws) (amp t : F32) (v : Voice) :
    (voiceSign p nan amp t v = ofInt 1 ∧ amp ≠ k0) ∨ voiceSign p nan amp t v = ofInt (-1) := by
  rw [voiceSign]
  split
  · next hgt =>
    refine .inl ⟨k1_eq_ofInt, ?_⟩
    rintro rfl
    simp [gt_mul_k0] at hgt
  · exact .inr kMinus1_eq_ofInt

/-- `up` of the voices add 1.0, and the others -1.0. -/
theorem oscSum_eq_ofInt (p : Params) (nan : Draws) (amp t : F32) {vs : List Voice} (hvs : vs.length ≤ 2 ^ 24) :
    ∃ up ≤ vs.length, (amp = k0 → up = 0) ∧ oscSum p nan vs amp t = ofInt (2 * (up : Int) - vs.length) := by
  induction vs using List.reverseRecOn with
  | nil => exact ⟨0, le_rfl, fun _ => rfl, k0_eq_ofInt⟩
  | append_singleton vs v ih =>
    rw [List.length_append, List.length_singleton] at hvs ⊢
    obtain ⟨up, hup, hclosed, hsum⟩ := ih (by omega)
    rw [oscSum_append_voice, hsum]
    rcases voiceSign_cases p (nan.from (oscOps * vs.length)) amp t v with ⟨hv, hamp⟩ | hv
    · rw [hv, add_ofInt _ (by omega) (by decide)]
      exact ⟨up + 1, by omega, fun h => absurd h hamp, congrArg ofInt (by omega)⟩
    · rw [hv, add_ofInt _ (by omega) (by decide)]
      exact ⟨up, by omega, hclosed, congrArg ofInt (by omega)⟩

/-- Settles O33: the sum is the value of a whole number of magnitude at most the number of voices. -/
theorem oscillatorSumIsAnInteger : Obligations.OscillatorSumIsAnInteger := by
  intro p nan vs amp t hvs
  obtain ⟨up, hup, -, hsum⟩ := oscSum_eq_ofInt p nan amp t hvs
  have hle : (2 * (up : Int) - vs.length).natAbs ≤ 2 ^ 24 := by omega
  rw [hsum]
  exact ⟨ofInt_ne_negative_zero hle, up, hup, isFinite_ofInt hle, value_ofInt hle⟩

/-- Settles O34: with the envelope at +0.0 no voice adds 1.0. -/
theorem closedEnvelopeForcesMinusOnePerVoice : Obligations.ClosedEnvelopeForcesMinusOnePerVoice := by
  intro p nan vs t hvs
  obtain ⟨up, -, hclosed, hsum⟩ := oscSum_eq_ofInt p nan k0 t hvs
  obtain rfl := hclosed rfl
  rw [hsum, value_ofInt (by omega)]
  omega

end Sys2Proof.Proofs
end

section
/-! PROOFS. The statements of spec 43_filter.md: the cutoff as the formula of R81 and the range it keeps, the
coefficients and the clamp (R82, R83), the filter's divisor (R84) and the filter update (R85). -/

namespace Sys2Proof.Proofs

open Sys2Proof.Fp Sys2Proof.Machine Sys2Proof.Laws Sys2Proof.Safety

/-! ### How large a result can be (R8) -/

section
variable {a b : F32} {m n r : Nat}

theorem mag_le_toNat (a : F32) : mag a ≤ a.toNat := Nat.mod_le _ _

theorem isFinite_of_mag_le (h : mag a ≤ m) (hm : m < infMag) : isFinite a = true :=
  decide_eq_true (h.trans_lt hm)

theorem value_bounds_of_mag_le (h : mag a ≤ m) : -(units m : Int) ≤ value a ∧ value a ≤ units m := by
  have hu := units_le_units.2 h
  rw [← natAbs_value] at hu
  omega

theorem mag_mul_le (d : F32) (ha : mag a ≤ m) (hb : mag b ≤ n) (hfin : m < infMag ∧ n < infMag ∧ r ≤ infMag)
    (h : units m * units n ≤ units r * 2 ^ 149) : mag (mul d a b) ≤ r := by
  obtain ⟨hm, hn, hr⟩ := hfin
  rw [mul_finite (isFinite_of_mag_le ha hm) (isFinite_of_mag_le hb hn), mag_ofMag _ _ (roundMag_lt _ _)]
  exact roundMag_le_of_le (by positivity) hr
    ((Nat.mul_le_mul (units_le_units.2 ha) (units_le_units.2 hb)).trans h)

theorem mag_div_le (d : F32) (ha : mag a ≤ m) (hb : isFinite b = true ∧ isZero b = false)
    (hfin : m < infMag ∧ r ≤ infMag) (h : units m * 2 ^ 149 ≤ units r * units (mag b)) :
    mag (div d a b) ≤ r := by
  obtain ⟨hb, hz⟩ := hb
  obtain ⟨hm, hr⟩ := hfin
  have hpos : 0 < units (mag b) := Nat.pos_of_ne_zero fun h0 => by
    simp [isZero, units_eq_zero.1 h0] at hz
  rw [div_finite (isFinite_of_mag_le ha hm) hb hz, mag_ofMag _ _ (roundMag_lt _ _)]
  exact roundMag_le_of_le hpos hr ((Nat.mul_le_mul_right _ (units_le_units.2 ha)).trans h)

/-- A sum whose exact value lies between two sizes does so when rounded. -/
theorem toNat_add_bounds (d : F32) (ha : a.toNat < infMag) (hb : isFinite b = true)
    (hfin : m ≤ infMag ∧ n ≤ infMag) (hlo : units m ≤ value a + value b) (hhi : value a + value b ≤ units n) :
    m ≤ (add d a b).toNat ∧ (add d a b).toNat ≤ n := by
  obtain ⟨k, hk⟩ := Int.eq_ofNat_of_zero_le ((Int.natCast_nonneg _).trans hlo)
  rw [toNat_add_of_value d (isFinite_of_toNat_lt ha) hb (sign_eq_false ha) hk]
  exact ⟨le_roundMag_of_le one_pos hfin.1 (by omega), roundMag_le_of_le one_pos hfin.2 (by omega)⟩

/-- The difference of values that are not negative is no larger than the subtrahend where that is the greater. -/
theorem mag_sub_le (d : F32) (hb : b.toNat < infMag) (h : a.toNat ≤ b.toNat) : mag (sub d a b) ≤ b.toNat := by
  have ha := h.trans_lt hb
  by_cases he : value a = value b
  · rw [sub_eq_zero_of_value_eq d (isFinite_of_toNat_lt ha) (isFinite_of_toNat_lt hb) he, sign_eq_false ha]
    exact Nat.zero_le _
  · rw [sub_eq_neg_sub d (isFinite_of_toNat_lt ha) (isFinite_of_toNat_lt hb) he, mag_neg]
    refine (mag_le_toNat _).trans ?_
    rw [toNat_sub d hb h]
    exact roundMag_le_of_le one_pos hb.le (by omega)

end

/-! ### Operands exchanged, zeros, and halves -/

section
variable {a b : F32}

theorem add_swap (d : F32) (ha : isFinite a = true) (hb : isFinite b = true) : add d a b = add d b a := by
  by_cases hz : value a + value b = 0
  · rw [add_cancel ha hb hz, add_cancel hb ha ((Int.add_comm _ _).trans hz), Bool.and_comm]
  · rw [add_finite ha hb hz, add_finite hb ha (by omega), Int.add_comm]

theorem mul_swap (d : F32) (ha : isFinite a = true) (hb : isFinite b = true) : mul d a b = mul d b a := by
  rw [mul_finite ha hb, mul_finite hb ha, bne_comm, Nat.mul_comm]

theorem units_k0 : units k0.toNat = 0 := by decide

theorem mul_k0 (d : F32) (ha : a.toNat < infMag) : mul d a k0 = k0 := by
  apply BitVec.eq_of_toNat_eq
  rw [toNat_mul d ha (by decide), units_k0, Nat.mul_zero, roundMag_zero (by decide)]
  rfl

theorem k0_mul (d : F32) (ha : a.toNat < infMag) : mul d k0 a = k0 := by
  rw [mul_swap d (by decide) (isFinite_of_toNat_lt ha), mul_k0 d ha]

theorem k0_add (d : F32) (ha : a.toNat < infMag) : add d k0 a = a := by
  apply BitVec.eq_of_toNat_eq
  rw [toNat_add d (by decide) ha, units_k0, Nat.zero_add,
    ← Nat.mul_one (units _), roundMag_units one_pos ha.le]

/-- Zero, and a value whose half is normal, is halved exactly. -/
theorem two_mul_units_half (d : F32) (ha : a.toNat < infMag) (h : a.toNat = 0 ∨ 2 ^ 24 ≤ a.toNat) :
    2 * units (div d a k2).toNat = units a.toNat := by
  obtain ⟨m, hm, hu⟩ : ∃ m ≤ infMag, units a.toNat = 2 * units m := by
    rcases h with h | h
    · exact ⟨0, Nat.zero_le _, by rw [h]; decide⟩
    · refine ⟨a.toNat - 2 ^ 23, by omega, ?_⟩
      rw [units_normal (by omega), units_normal (by omega),
        show a.toNat / 2 ^ 23 - 1 = (a.toNat - 2 ^ 23) / 2 ^ 23 - 1 + 1 by omega,
        show a.toNat % 2 ^ 23 = (a.toNat - 2 ^ 23) % 2 ^ 23 by omega, pow_succ]
      ring
  have hk2 : units k2.toNat = 2 * 2 ^ 149 := by decide +kernel
  rw [toNat_div d ha (by decide) (by decide), hk2, hu,
    show 2 * units m * 2 ^ 149 = units m * (2 * 2 ^ 149) by ring, roundMag_units (by positivity) hm]

end

/-! ### The depth of the sweep, `100.0 * CTRL1` (R17, R81) -/

theorem toNat_controllerValue {v : Nat} (hv : v < 128) :
    (controllerValue v).toNat = roundMag (v * 2 ^ 149 * 2 ^ 149) (127 * 2 ^ 149) := by
  rw [controllerValue, toNat_div _ (toNat_ofNat_lt (by omega)) (by decide) (by decide), units_ofNat (by omega),
    show units k127.toNat = 127 * 2 ^ 149 by decide +kernel]

theorem controllerValue_le_k1 {v : Nat} (hv : v < 128) : (controllerValue v).toNat ≤ k1.toNat := by
  rw [toNat_controllerValue hv]
  refine roundMag_le_of_le (by positivity) (by decide) ?_
  rw [units_k1]
  omega

theorem controllerValue_zero : controllerValue 0 = k0 := by
  rw [controllerValue, ofNat_zero, k0_div _ (by decide) (by decide)]

theorem controllerValue_127 : controllerValue 127 = k1 := by
  rw [controllerValue, show ofNat 127 = k127 by decide +kernel, div_same _ (by decide) (by decide)]

/-- The least controller value above 0.0 is more than 2^-7. -/
theorem le_controllerValue {v : Nat} (hv : v < 128) (h0 : 0 < v) : 0x3C000000 ≤ (controllerValue v).toNat := by
  rw [toNat_controllerValue hv]
  refine le_roundMag_of_le (by positivity) (by decide) ?_
  rw [show units 0x3C000000 = 2 ^ 142 by decide +kernel]
  omega

section
variable (nan : Draws) {v : Nat} (hv : v < 128)
include hv

theorem cutoffValue_le_k100 : (cutoffValue nan (controllerValue v)).toNat ≤ k100.toNat := by
  have hc := controllerValue_le_k1 hv
  rw [cutoffValue, toNat_mul _ (by decide) (hc.trans_lt (by decide))]
  refine roundMag_le_of_le (by positivity) (by decide) ?_
  rw [← units_k1]
  exact Nat.mul_le_mul_left _ (units_le_units.2 hc)

theorem cutoffValue_lt_infMag : (cutoffValue nan (controllerValue v)).toNat < infMag :=
  (cutoffValue_le_k100 nan hv).trans_lt (by decide)

/-- The depth is 0.0, or more than 100.0 times 2^-7, far above the subnormals. -/
theorem cutoffValue_eq_zero_or_large : (cutoffValue nan (controllerValue v)).toNat = 0 ∨
    2 ^ 24 ≤ (cutoffValue nan (controllerValue v)).toNat := by
  rcases Nat.eq_zero_or_pos v with rfl | h0
  · rw [controllerValue_zero, cutoffValue, mul_k0 _ (by decide)]
    exact .inl rfl
  · have hc := le_controllerValue hv h0
    rw [cutoffValue, toNat_mul _ (by decide) ((controllerValue_le_k1 hv).trans_lt (by decide))]
    refine .inr (le_roundMag_of_le (by positivity) (by decide) ?_)
    calc units (2 ^ 24) * 2 ^ 149
        ≤ units k100.toNat * units 0x3C000000 := by decide +kernel
      _ ≤ units k100.toNat * units (controllerValue v).toNat := Nat.mul_le_mul_left _ (units_le_units.2 hc)

theorem two_mul_units_half_cutoffValue (d : F32) :
    2 * units (div d (cutoffValue nan (controllerValue v)) k2).toNat =
      units (cutoffValue nan (controllerValue v)).toNat :=
  two_mul_units_half d (cutoffValue_lt_infMag nan hv) (cutoffValue_eq_zero_or_large nan hv)

theorem half_cutoffValue_lt_infMag (d : F32) :
    (div d (cutoffValue nan (controllerValue v)) k2).toNat < infMag := by
  have hexact := two_mul_units_half_cutoffValue nan hv d
  have hdepth := units_lt_units.2 (cutoffValue_lt_infMag nan hv)
  exact units_lt_units.1 (by omega)

end

/-! ### The sine of the LFO (R81) -/

/-- With `CTRL2` at +0.0 the phase is +0.0 at every time. -/
theorem lfoSine_k0 {p : Params} (hp : p.Properties) (nan : Draws) {t : F32} (ht : t.toNat < infMag) :
    lfoSine p nan k0 t = k0 := by
  rw [lfoSine, mul_k0 _ (by decide), mul_k0 _ (by decide), k0_mul _ ht, hp.p1]

/-- The phase is finite: at most 2 pi times 50 Hz times 512 s. -/
theorem mag_lfoSine_le {p : Params} (hp : p.Properties) (nan : Draws) {v : Nat} (hv : v < 128) {t : F32}
    (ht : t.toNat ≤ 0x44000000) : mag (lfoSine p nan (controllerValue v) t) ≤ k1.toNat := by
  have hc : mag (controllerValue v) ≤ k1.toNat := (mag_le_toNat _).trans (controllerValue_le_k1 hv)
  have hhz : mag (mul (nan 1) k50 (controllerValue v)) ≤ k50.toNat :=
    mag_mul_le (m := k50.toNat) _ (by decide) hc (by decide) (by decide +kernel)
  have hrate : mag (mul (nan 2) kTwoPi (mul (nan 1) k50 (controllerValue v))) ≤ k440.toNat :=
    mag_mul_le (m := kTwoPi.toNat) _ (by decide) hhz (by decide) (by decide +kernel)
  have hphase : mag (mul (nan 3) (mul (nan 2) kTwoPi (mul (nan 1) k50 (controllerValue v))) t) ≤ 0x48800000 :=
    mag_mul_le _ hrate ((mag_le_toNat t).trans ht) (by decide) (by decide +kernel)
  exact of_decide_eq_true (hp.p6sin _ (isFinite_of_mag_le hphase (by decide)))

/-! ### The cutoff (R81) -/

/-- Settles O36: the definition is the formula. -/
theorem lfoMapIsTheFormula : Obligations.LfoMapIsTheFormula := fun _ _ _ _ _ => rfl

/-- A stopped LFO has the sine +0.0, so that half of the sum is +0.0. -/
theorem lfoMap_k0 {p : Params} (hp : p.Properties) (nan : Draws) {v : Nat} (hv : v < 128) {t : F32}
    (ht : t.toNat < infMag) :
    lfoMap p nan (controllerValue v) k0 t = div (nan 6) (cutoffValue nan (controllerValue v)) k2 := by
  rw [lfoMap, lfoSine_k0 hp nan ht, k0_mul _ (cutoffValue_lt_infMag nan hv), k0_div _ (by decide) (by decide),
    k0_add _ (half_cutoffValue_lt_infMag nan hv _)]

/-- Settles O37: a stopped LFO leaves half the depth, and the depth of `CTRL1` = 1.0 is 100.0, whose half is 50.0. -/
theorem stoppedLfoHoldsHalfTheDepth : Obligations.StoppedLfoHoldsHalfTheDepth := by
  intro p nan v t hp hv ht
  have htime : t.toNat < infMag := ht.trans_lt (by decide)
  refine ⟨lfoMap_k0 hp nan hv htime, BitVec.eq_of_toNat_eq ?_⟩
  rw [lfoMap_k0 hp nan (by decide) htime, controllerValue_127, cutoffValue, mul_k1 _ (by decide),
    toNat_div _ (by decide) (by decide) (by decide)]
  decide +kernel

/-- R81: the sine times the depth is no larger than the depth, so its half is no larger than half the depth, which is
exact: the exact sum of the two halves is between 0.0 and the depth. -/
theorem lfoMap_le_cutoffValue {p : Params} (hp : p.Properties) (nan : Draws) {v1 v2 : Nat} (hv1 : v1 < 128)
    (hv2 : v2 < 128) {t : F32} (ht : t.toNat ≤ 0x44000000) :
    (lfoMap p nan (controllerValue v1) (controllerValue v2) t).toNat ≤
      (cutoffValue nan (controllerValue v1)).toNat := by
  have hdepth := cutoffValue_lt_infMag nan hv1
  have hhalf := half_cutoffValue_lt_infMag nan hv1 (nan 6)
  have hexact := two_mul_units_half_cutoffValue nan hv1 (nan 6)
  have hsine := mag_lfoSine_le hp nan hv2 ht
  rw [lfoMap]
  generalize cutoffValue nan (controllerValue v1) = depth at *
  generalize div (nan 6) depth k2 = half at *
  generalize lfoSine p nan (controllerValue v2) t = s at *
  have hprod : mag (mul (nan 4) s depth) ≤ depth.toNat :=
    mag_mul_le _ hsine (mag_le_toNat depth) ⟨by decide, hdepth, hdepth.le⟩ (by rw [units_k1, Nat.mul_comm])
  have hswing : mag (div (nan 5) (mul (nan 4) s depth) k2) ≤ half.toNat := by
    refine mag_div_le _ hprod (by decide) ⟨hdepth, hhalf.le⟩ (le_of_eq ?_)
    rw [← hexact, show units (mag k2) = 2 * 2 ^ 149 by decide +kernel]
    ring
  have hfin := isFinite_of_mag_le hswing hhalf
  have hvalue := value_bounds_of_mag_le hswing
  rw [add_swap _ hfin (isFinite_of_toNat_lt hhalf)]
  refine (toNat_add_bounds (m := 0) _ hhalf hfin ⟨Nat.zero_le _, hdepth.le⟩ ?_ ?_).2
  · rw [value_eq_units hhalf, units_zero]
    omega
  · rw [value_eq_units hhalf]
    omega

/-- Settles O38: the cutoff is at most the depth, and the depth, 100.0 times at most 1.0, is at most 100.0. -/
theorem cutoffStaysWithinItsDepth : Obligations.CutoffStaysWithinItsDepth := fun _ nan _ _ _ hp hv1 hv2 ht =>
  ⟨lfoMap_le_cutoffValue hp nan hv1 hv2 ht, cutoffValue_le_k100 nan hv1⟩

/-! ### The Nyquist clamp (R83) -/

theorem clampFrequency_eq (p : Params) (f0 : F32) : clampFrequency p f0 =
    if p.nyquistClamp = true ∧ gt f0 p.clampLimit = true then p.clampLimit else f0 := by
  simp [clampFrequency]

theorem clampFrequency_of_gt {p : Params} {f0 : F32} (hon : p.nyquistClamp = true)
    (h : gt f0 p.clampLimit = true) : clampFrequency p f0 = p.clampLimit := by
  rw [clampFrequency_eq, if_pos ⟨hon, h⟩]

theorem clampFrequency_of_not_gt {p : Params} {f0 : F32} (h : gt f0 p.clampLimit = false) :
    clampFrequency p f0 = f0 := by
  simp [clampFrequency_eq, h]

theorem gt_self (a : F32) : gt a a = false := by simp [gt]

theorem gt_of_eq {a b : F32} (h : eq a b = true) : gt a b = false := by
  obtain ⟨-, hvalue⟩ : _ ∧ value a = value b := by simpa [eq] using h
  simp [gt, hvalue]

/-- Settles O40: the clamp is the two cases of its comparison, which is false of equal values and of a NaN. -/
theorem nyquistClampLimitsTheFrequency : Obligations.NyquistClampLimitsTheFrequency := by
  intro p f0
  refine ⟨fun hoff => by simp [clampFrequency_eq, hoff], fun hon => ⟨clampFrequency_of_gt hon,
    clampFrequency_of_not_gt, fun hnan => clampFrequency_of_not_gt (gt_nan (.inl hnan)),
    fun heq => clampFrequency_of_not_gt (gt_of_eq heq), ?_⟩⟩
  cases h : gt f0 p.clampLimit
  · rwa [clampFrequency_of_not_gt h]
  · rw [clampFrequency_of_gt hon h, gt_self]

/-! ### The coefficients (R82) -/

/-- A cutoff of 100.0 has the exponent +0.0, and P5 gives 1.0 for it. -/
theorem cornerFrequency_k100 {p : Params} (hp : p.Properties) (nan : Draws) :
    cornerFrequency p nan k100 = kMaxF := by
  have hsub : sub (nan 0) k100 k100 = k0 := sub_eq_zero_of_value_eq _ (by decide) (by decide) rfl
  rw [cornerFrequency, hsub, mul_k0 _ (by decide), k0_div _ (by decide) (by decide), hp.p5,
    mul_swap _ (by decide) (by decide), mul_k1 _ (by decide)]

/-- Settles O39: the definition is the formulas, once the clamp's two conditions are read as one. -/
theorem coefficientsAreTheFormulas : Obligations.CoefficientsAreTheFormulas := by
  refine ⟨fun p nan cutoff f => ?_, fun p nan hp => cornerFrequency_k100 hp nan⟩
  simp only [coef, angularFrequency, clampFrequency_eq, cornerFrequency]

/-! ### The divisor `A0` (R84) -/

/-- The exponent of a cutoff in [0.0, 100.0] is not below -87.0: it is no larger than 100.0 by `K_LN2`, which is below
1.0, over 10.0. -/
theorem expArgInRange_of_cutoff (nan : Draws) {cutoff : F32} (h : cutoff.toNat ≤ k100.toNat) :
    expArgInRange (div (nan 2) (mul (nan 1) kLn2 (sub (nan 0) cutoff k100)) k10) = true := by
  have hprod : mag (mul (nan 1) kLn2 (sub (nan 0) cutoff k100)) ≤ k100.toNat :=
    mag_mul_le (m := kLn2.toNat) _ (by decide) (mag_sub_le _ (by decide) h) (by decide) (by decide +kernel)
  have harg : mag (div (nan 2) (mul (nan 1) kLn2 (sub (nan 0) cutoff k100)) k10) ≤ 0x42AE0000 :=
    mag_div_le _ hprod (by decide) (by decide) (by decide +kernel)
  rw [expArgInRange, isFinite_of_mag_le harg (by decide), decide_eq_true harg, Bool.or_true, Bool.and_true]

/-- So `f0` has the sign of a positive value and is no NaN; it can be infinite. -/
theorem cornerFrequency_nonneg {p : Params} (hp : p.Properties) (nan : Draws) {cutoff : F32}
    (h : cutoff.toNat ≤ k100.toNat) :
    sign (cornerFrequency p nan cutoff) = false ∧ isNaN (cornerFrequency p nan cutoff) = false := by
  obtain ⟨⟨hsign, -⟩, hnan⟩ := by simpa [isPositive] using hp.p6exp _ (expArgInRange_of_cutoff nan h)
  have hf0 : isNaN (cornerFrequency p nan cutoff) = false := by
    rw [cornerFrequency, isNaN_mul_eq _ (by decide) (by decide), hnan]
  exact ⟨(mul_of_not_isNaN hf0).1.trans (by rw [hsign]; decide), hf0⟩

theorem mag_le_of_gt_eq_false {a b : F32} (ha : sign a = false ∧ isNaN a = false)
    (hb : sign b = false ∧ isNaN b = false) (h : gt a b = false) : mag a ≤ mag b := by
  obtain ⟨hsa, hna⟩ := ha
  obtain ⟨hsb, hnb⟩ := hb
  simpa [gt, hna, hnb, value, hsa, hsb, units_le_units] using h

/-- The clamp leaves `f0` at most `CLAMP_LIMIT`, also where it was infinite. -/
theorem mag_clampFrequency_le {p : Params} {f0 : F32} (hon : p.nyquistClamp = true)
    (hf0 : sign f0 = false ∧ isNaN f0 = false)
    (hlimit : sign p.clampLimit = false ∧ isNaN p.clampLimit = false) :
    mag (clampFrequency p f0) ≤ mag p.clampLimit := by
  cases h : gt f0 p.clampLimit
  · rw [clampFrequency_of_not_gt h]
    exact mag_le_of_gt_eq_false hf0 hlimit h
  · rw [clampFrequency_of_gt hon h]

/-- At most 2 pi times `CLAMP_LIMIT` over `RF`, `w0` is finite. -/
theorem isFinite_angularFrequency (nan : Draws) {cutoff : F32} (h : cutoff.toNat ≤ k100.toNat) :
    isFinite (angularFrequency Config.params nan cutoff) = true := by
  have hf0 := cornerFrequency_nonneg configurationHasTheProperties.left nan h
  have hclamped := mag_clampFrequency_le (p := Config.params) rfl hf0 (by decide +kernel)
  have hprod : mag (mul (nan 4) kTwoPi (clampFrequency Config.params (cornerFrequency Config.params nan cutoff))) ≤
      0x48800000 := mag_mul_le (m := kTwoPi.toNat) _ (by decide) hclamped (by decide +kernel) (by decide +kernel)
  have hw0 : mag (angularFrequency Config.params nan cutoff) ≤ 0x48800000 :=
    mag_div_le _ hprod (by decide +kernel) (by decide) (by decide +kernel)
  exact isFinite_of_mag_le hw0 (by decide)

/-- `alpha`, half a sine, is at most 0.5 in magnitude. -/
theorem mag_alpha_le {p : Params} (hp : p.Properties) (d d' : F32) {w0 : F32} (hw0 : isFinite w0 = true) :
    mag (div d (p.sin w0) (mul d' k2 kQ)) ≤ 0x3F000000 := by
  have hsine : mag (p.sin w0) ≤ k1.toNat := of_decide_eq_true (hp.p6sin w0 hw0)
  rw [show mul d' k2 kQ = k2 from mul_k1 d' (by decide)]
  exact mag_div_le d hsine (by decide) (by decide) (by decide +kernel)

theorem coef_a0 (p : Params) (nan : Draws) (cutoff : F32) (f : FilterState) : (coef p nan cutoff f).a0 =
    add (nan 8) k1 (div (nan 7) (p.sin (angularFrequency p nan cutoff)) (mul (nan 6) k2 kQ)) := rfl

/-- Settles O41: the clamp makes `w0` finite, so `alpha` is at most 0.5 in magnitude, and the exact sum 1.0 + `alpha`
lies between the representable 0.5 and 1.5. -/
theorem filterDivisorIsAtLeastHalf : Obligations.FilterDivisorIsAtLeastHalf := by
  intro nan cutoff f h
  have halpha := mag_alpha_le configurationHasTheProperties.left (nan 7) (nan 6) (isFinite_angularFrequency nan h)
  have hvalue := value_bounds_of_mag_le halpha
  have hk1 : value k1 = 2 * units 0x3F000000 := by decide +kernel
  have hhi : units 0x3FC00000 = 3 * units 0x3F000000 := by decide +kernel
  rw [coef_a0]
  exact toNat_add_bounds _ (by decide) (isFinite_of_mag_le halpha (by decide)) (by decide) (by omega) (by omega)

/-! ### The filter update (R85) -/

/-- Settles O42: the definition is the formula, and none of the four moves reads a register that one before it wrote. -/
theorem biquadIsTheFormula : Obligations.BiquadIsTheFormula := fun _ _ _ => rfl

end Sys2Proof.Proofs
end

section
/-! PROOFS. The statements of spec 44_render.md: the block and the state that RENDER leaves (R87, R88), that a RENDER
can be split (R90), and the sample step as the pipeline of the units (R91, R92). -/

namespace Sys2Proof.Proofs

open Sys2Proof.Machine Sys2Proof.Laws Sys2Proof.Safety

/-! ### The block of a RENDER (R87) -/

/-- The first frame is the first sample step's, and the frames after it are those of a RENDER from the state it left. -/
theorem renderFrames_block (p : Params) (n : Nat) (s : State) : (renderFrames p n s).2 =
    (List.range n).flatMap fun i => frame p (sampleSteps p (i + 1) s).filter.y0 := by
  induction n generalizing s with
  | zero => rfl
  | succ n ih =>
    rw [renderFrames_succ, ih, List.range_succ_eq_map, List.flatMap_cons, List.flatMap_map]
    rfl

/-- Settles O24: RENDER is its sample steps and the hand-over of its block, in which a frame is the value twice. -/
theorem renderRunsItsSampleSteps : Obligations.RenderRunsItsSampleSteps := by
  intro n s
  have hrender : exec (.render n) s = .next (render Config.params n s) := rfl
  rw [hrender, render_eq, renderFrames_block]
  rfl

/-- Settles O25: with no sample step there is no frame, and the hand-over of the empty block is all that is left. -/
theorem renderZeroHandsOverAnEmptyBlock : Obligations.RenderZeroHandsOverAnEmptyBlock := fun _ => rfl

/-! ### A RENDER split in two (R90) -/

theorem renderFrames_block_add (p : Params) (a b : Nat) (s : State) : (renderFrames p (a + b) s).2 =
    (renderFrames p a s).2 ++ (renderFrames p b (sampleSteps p a s)).2 := by
  induction a generalizing s with
  | zero => rw [Nat.zero_add]; rfl
  | succ a ih =>
    rw [Nat.succ_add, renderFrames_succ, renderFrames_succ, ih, List.append_assoc]
    rfl

/-- No sample step reads the output stream, so a block handed over before the frames changes none of them. -/
theorem renderFrames_handOver (p : Params) (n : Nat) (s : State) (block : List F32) :
    renderFrames p n (s.handOver block) =
      ((renderFrames p n s).1.handOver block, (renderFrames p n s).2) := by
  induction n generalizing s with
  | zero => rfl
  | succ n ih =>
    have hstep : sampleStep p (s.handOver block) = (sampleStep p s).handOver block := rfl
    rw [renderFrames_succ, renderFrames_succ, hstep, ih, handOver_filter]

/-- Two RENDERs are the sample steps of both, and the two parts of the one block handed over one after the other. -/
theorem render_render (p : Params) (a b : Nat) (s : State) : render p b (render p a s) =
    ((sampleSteps p (a + b) s).handOver (renderFrames p a s).2).handOver
      (renderFrames p b (sampleSteps p a s)).2 := by
  rw [render_eq p s a, render, renderFrames_handOver, renderFrames_state, sampleSteps_add]

/-- Settles O26: after the same sample steps, the two parts of the block differ from the one block only in how they
are handed over. -/
theorem renderSplitsInvisibly : Obligations.RenderSplitsInvisibly := by
  intro a b s
  have houtput : (sampleSteps Config.params (a + b) s).output = s.output :=
    sampleSteps_field _ (g := State.output) (sampleStep_output _) _ s
  refine ⟨_, _, _, (renderFrames Config.params a s).2,
    (renderFrames Config.params b (sampleSteps Config.params a s)).2, rfl, rfl, rfl, ?_, ?_, ?_⟩
  · rw [render_render, handOver_output, handOver_output, houtput, List.append_assoc]
    rfl
  · rw [render_eq, handOver_output, houtput, renderFrames_block_add]
  · rw [render_render, render_eq]
    rfl

/-! ### The sample step as a pipeline (R91, R92) -/

/-- Settles O28: the units read the state from before the step, each from the draw at which the operations before it
end, and the step's frame is the first of its block. -/
theorem sampleStepFollowsThePipeline : Obligations.SampleStepFollowsThePipeline :=
  fun p s => ⟨rfl, renderFrames_succ p s⟩

end Sys2Proof.Proofs
end

section
/-! PROOFS. The statements of spec 60_exceptions.md: which operations give a NaN and that its bits are the draw (R103),
a NaN in the filter's delay line (R103, R122), that nothing stops (R101), the idle block (R112), and a word's issuer
(R105). -/

namespace Sys2Proof.Proofs

open Sys2Proof.Fp Sys2Proof.Machine Sys2Proof.Laws Sys2Proof.Safety

/-! ### Where a NaN comes from (R103) -/

/-- `r` is the NaN made of the draw `d` where the operation is `invalid`, and no NaN where it is not. -/
inductive NaNExactlyIf (invalid : Prop) (d : F32) : F32 → Prop where
  | draw (h : invalid) : NaNExactlyIf invalid d (nanOf d)
  | valid {r : F32} (h : ¬invalid) (hr : isNaN r = false) : NaNExactlyIf invalid d r

theorem NaNExactlyIf.isNaN_iff {P : Prop} {d r : F32} (h : NaNExactlyIf P d r) : isNaN r = true ↔ P := by
  cases h with
  | draw h => simp [h]
  | valid h hr => simp [h, hr]

theorem NaNExactlyIf.eq_nanOf {P : Prop} {d r : F32} (h : NaNExactlyIf P d r) (hr : isNaN r = true) :
    r = nanOf d := by
  cases h with
  | draw => rfl
  | valid _ hr' => simp [hr'] at hr

theorem add_nanExactlyIf (d a b : F32) :
    NaNExactlyIf (isNaN a = true ∨ isNaN b = true ∨ (isInf a = true ∧ isInf b = true ∧ sign a ≠ sign b))
      d (add d a b) := by
  simp only [add]
  split_ifs with hnan ha hopposite hb hz <;> simp only [Bool.or_eq_true, Bool.and_eq_true, bne_iff_ne] at *
  · exact .draw (by tauto)
  · exact .draw (by tauto)
  · exact .valid (by tauto) (by simpa using mt .inl hnan)
  · exact .valid (by tauto) (by simpa using mt .inr hnan)
  · exact .valid (by tauto) (isNaN_ofMag _ _ (Nat.zero_le _))
  · exact .valid (by tauto) (isNaN_ofMag _ _ (roundMag_le _ _))

/-- Negation changes the sign alone, so the infinities whose sum is invalid are those of one sign. -/
theorem sub_nanExactlyIf (d a b : F32) :
    NaNExactlyIf (isNaN a = true ∨ isNaN b = true ∨ (isInf a = true ∧ isInf b = true ∧ sign a = sign b))
      d (sub d a b) := by
  rw [sub]
  simpa using add_nanExactlyIf d a (neg b)

theorem mul_nanExactlyIf (d a b : F32) :
    NaNExactlyIf (isNaN a = true ∨ isNaN b = true ∨
      (isInf a = true ∧ isZero b = true) ∨ (isZero a = true ∧ isInf b = true)) d (mul d a b) := by
  rw [mul]
  split_ifs with hnan hinvalid hinf <;> simp only [Bool.or_eq_true, Bool.and_eq_true] at *
  · exact .draw (by tauto)
  · exact .draw (by tauto)
  · exact .valid (by tauto) (isNaN_ofMag _ _ le_rfl)
  · exact .valid (by tauto) (isNaN_ofMag _ _ (roundMag_le _ _))

theorem div_nanExactlyIf (d a b : F32) :
    NaNExactlyIf (isNaN a = true ∨ isNaN b = true ∨
      (isInf a = true ∧ isInf b = true) ∨ (isZero a = true ∧ isZero b = true)) d (div d a b) := by
  rw [div]
  split_ifs with hnan hinvalid hinf hzero <;> simp only [Bool.or_eq_true, Bool.and_eq_true] at *
  · exact .draw (by tauto)
  · exact .draw (by tauto)
  · exact .valid (by tauto) (isNaN_ofMag _ _ le_rfl)
  · exact .valid (by tauto) (isNaN_ofMag _ _ (Nat.zero_le _))
  · exact .valid (by tauto) (isNaN_ofMag _ _ (roundMag_le _ _))

/-- Settles O48: every branch of an operation either is invalid and gives the draw's NaN, or is valid and assembles a
value that is at most an infinity, or is an operand that is no NaN. -/
theorem naNResultsAreTheDraw : Obligations.NaNResultsAreTheDraw := by
  intro d a b
  have hadd := add_nanExactlyIf d a b
  have hsub := sub_nanExactlyIf d a b
  have hmul := mul_nanExactlyIf d a b
  have hdiv := div_nanExactlyIf d a b
  exact ⟨hadd.isNaN_iff, hsub.isNaN_iff, hmul.isNaN_iff, hdiv.isNaN_iff,
    hadd.eq_nanOf, hsub.eq_nanOf, hmul.eq_nanOf, hdiv.eq_nanOf⟩

/-! ### A NaN in the delay line (R103, R122) -/

/-- The filter's sum takes `A1*Y1` and then `A2*Y2` away, and a NaN in either is a NaN in the sum. -/
theorem isNaN_biquadSum (nan : Draws) (x0 : F32) {f : FilterState}
    (h : isNaN f.y1 = true ∨ isNaN f.y2 = true) : isNaN (biquadSum nan x0 f) = true := by
  have hsub {d a b : F32} (h : isNaN a = true ∨ isNaN b = true) : isNaN (sub d a b) = true := by
    rw [sub_nan h, isNaN_nanOf]
  have hmul {d a b : F32} (h : isNaN b = true) : isNaN (mul d a b) = true := by
    rw [mul_nan (.inr h), isNaN_nanOf]
  rw [biquadSum]
  rcases h with h | h
  · exact hsub (.inl (hsub (.inr (hmul h))))
  · exact hsub (.inr (hmul h))

theorem isNaN_sampleFilter_y0 (p : Params) {s : State}
    (h : isNaN s.filter.y1 = true ∨ isNaN s.filter.y2 = true) : isNaN (sampleFilter p s).y0 = true := by
  rw [sampleFilter, biquad_y0, div_nan (.inl (isNaN_biquadSum _ _ (by simpa using h))), isNaN_nanOf]

/-- The value just put out, which is `Y1` as well, is a NaN. -/
def NaNPutOut (s : State) : Prop := isNaN s.filter.y0 = true ∧ isNaN s.filter.y1 = true

theorem sampleStep_nanPutOut (p : Params) {s : State}
    (h : isNaN s.filter.y1 = true ∨ isNaN s.filter.y2 = true) : NaNPutOut (sampleStep p s) := by
  have hy0 := isNaN_sampleFilter_y0 p h
  rw [NaNPutOut, sampleStep_filter, sampleFilter_y1]
  exact ⟨hy0, hy0⟩

theorem sampleSteps_succ_nanPutOut (p : Params) (n : Nat) {s : State}
    (h : isNaN s.filter.y1 = true ∨ isNaN s.filter.y2 = true) : NaNPutOut (sampleSteps p (n + 1) s) :=
  sampleSteps_keep p (fun _ ht => sampleStep_nanPutOut p (.inl ht.2)) n (sampleStep_nanPutOut p h)

/-- Settles O43: the first sample step puts the NaN into `Y1`, every later one keeps it there, and a frame holds the
value that its step put out. -/
theorem naNInTheDelayLineStaysForEver : Obligations.NaNInTheDelayLineStaysForEver := by
  intro p n s h
  refine ⟨fun hn => ?_, (renderFrames p n s).2, ?_, fun y hy => ?_⟩
  · obtain ⟨m, rfl⟩ := Nat.exists_eq_add_one.2 hn
    rw [render_eq, handOver_filter]
    exact (sampleSteps_succ_nanPutOut p m h).2
  · rw [render_eq, handOver_output, sampleSteps_field p (g := State.output) (sampleStep_output p)]
  · rw [renderFrames_block, List.mem_flatMap] at hy
    obtain ⟨i, -, hy⟩ := hy
    rw [List.eq_of_mem_replicate hy]
    exact (sampleSteps_succ_nanPutOut p i h).1

/-! ### Nothing stops, and the idle block (R101, R112) -/

theorem step_next (s : State) : ∃ t, step s = .next t := by
  cases h : takeWord Config.eventFirst s with
  | none => exact ⟨s, step_of_takeWord_none h⟩
  | some taken => exact step_of_takeWord h ▸ execWord_next taken.1 taken.2

/-- Settles O11: every command has a next state, and a step is idle or does what the word taken does. -/
theorem noCommandAndNoStepStops : Obligations.NoCommandAndNoStepStops := ⟨exec_next, step_next⟩

/-- Settles O12: with both queues empty there is no word to take. -/
theorem idleBlockHoldsItsState : Obligations.IdleBlockHoldsItsState := fun _ he hr =>
  step_of_takeWord_none (takeWord_eq_none.2 ⟨he, hr⟩)

/-! ### The issuer of a word (R105) -/

/-- Settles O17: taken from either queue, the word leaves one and the same state to run in. -/
theorem issuerOfAWordDoesNotMatter : Obligations.IssuerOfAWordDoesNotMatter := by
  intro s w turns
  obtain ⟨t, ht⟩ := execWord_next w (s.setQueues [] [] turns)
  exact ⟨t, (step_of_takeWord (takeWord_event _ rfl rfl)).trans ht,
    (step_of_takeWord (takeWord_render _ rfl rfl)).trans ht⟩

end Sys2Proof.Proofs
end

section
/-! PROOFS. The statements of spec 70_reset_and_hazards.md: every register after power-on reset and the constants
computed with it (R114, R11), and that the state after reset meets the three invariants that every step keeps. -/

namespace Sys2Proof.Proofs

open Sys2Proof.Machine Sys2Proof.Laws Sys2Proof.Safety

/-! ### The constants of the sample rate (R11) -/

theorem params_rf : Config.params.rf = 0x472C4400 := by decide +kernel

theorem params_dt : Config.params.dt = 0x37BE37C6 := by
  rw [Params.dt, params_rf]
  decide +kernel

theorem params_clampLimit : Config.params.clampLimit = 0x46AA8B00 := by
  rw [Params.clampLimit, params_rf]
  decide +kernel

/-- Settles O51: the reset state is written with these values, and `R` = 44100 gives the constants. -/
theorem resetSetsEveryRegister : Obligations.ResetSetsEveryRegister :=
  ⟨rfl, params_rf, params_dt, params_clampLimit⟩

/-! ### The invariants after reset (R16, R17, R22, R27, R67) -/

/-- A controller at +0.0 is one that SET_CTRL set to 0. -/
theorem isControllerValue_k0 : IsControllerValue k0 := ⟨0, by decide, controllerValue_zero.symm⟩

theorem reset_registersLegal : RegistersLegal State.reset where
  gate := .inl rfl
  ctrl1 := isControllerValue_k0
  ctrl2 := isControllerValue_k0
  ctrl3 := isControllerValue_k0
  ctrl4 := isControllerValue_k0
  voices := List.forall_mem_nil _
  q := rfl
  resPct := rfl
  output := List.forall_mem_nil _

theorem reset_timeLegal : TimeLegal State.reset := Nat.zero_le _

theorem reset_envelopeLegal : EnvelopeLegal State.reset where
  gate := .inl rfl
  amp := Nat.zero_le _
  closed _ := rfl

/-- Settles O52: the gate is closed, `AMP` and `T` are +0.0, and no voice and no block is there to be illegal. -/
theorem resetMeetsTheInvariants : Obligations.ResetMeetsTheInvariants :=
  ⟨reset_registersLegal, reset_timeLegal, reset_envelopeLegal⟩

end Sys2Proof.Proofs
end
